-- ==== Sys2Proof/Word.lean ====
section
/-! DEFINITION. The word types of the engine (00_scope.md R7; 20_memory.md R43; 30_encoding.md R65, R67). -/

namespace Sys2Proof

/-- A register, DATA or KEY element, or bus data word: W = 64 bits (R7). -/
abbrev Word := BitVec 64

/-- One byte lane of the bus (R55). -/
abbrev Byte := BitVec 8

/-- A command word: CW = 32 bits, carried in CMD[31:0] (R65). -/
abbrev CmdWord := BitVec 32

/-- A byte offset in the host-visible register block: 14 bits (R43). -/
abbrev Offset := BitVec 14

/-- The index of an operand register, 0 to 7 (R17, R69). -/
abbrev RegIdx := Fin 8

end Sys2Proof
end

