-- ==== Sys2Proof/Syntax.lean ====
section
/-! DEFINITION. The commands of MEE-1 (30_encoding.md R71, R73): one constructor per row of spec/opcode_table.json. -/

namespace Sys2Proof

/-- A command with its register fields, destination first (R73). Format Z commands take their operands from the
cipher configuration registers and memories (R69). -/
inductive Instr where
  /-- OP 0x00, format Z (R100). -/
  | nop
  /-- OP 0x01, format R2: `mod xd, xa, xb` (R78). -/
  | mod (rd rs1 rs2 : RegIdx)
  /-- OP 0x02, format R2: `gcd xd, xa, xb` (R79). -/
  | gcd (rd rs1 rs2 : RegIdx)
  /-- OP 0x03, format R2, RD at most 5: `extgcd xd, xa, xb` (R80). -/
  | extgcd (rd rs1 rs2 : RegIdx)
  /-- OP 0x04, format R2: `modinv xd, xk, xn` (R81). -/
  | modinv (rd rs1 rs2 : RegIdx)
  /-- OP 0x05, format R3: `modpow xd, xb, xe, xm` (R82). -/
  | modpow (rd rs1 rs2 rs3 : RegIdx)
  /-- OP 0x10, format Z (R89). -/
  | shenc
  /-- OP 0x11, format Z (R90). -/
  | shdec
  /-- OP 0x12, format Z (R92). -/
  | afcfg
  /-- OP 0x13, format Z (R93). -/
  | afenc
  /-- OP 0x14, format Z (R94). -/
  | afdec
  /-- OP 0x15, format Z (R97). -/
  | paenc
  /-- OP 0x16, format Z (R98). -/
  | padec
  deriving DecidableEq, Repr

end Sys2Proof
end

