-- ==== Sys2Proof/WellFormed.lean ====
section
/-! DEFINITION. Which terms of Instr are legal commands (30_encoding.md R72). The register fields are in range
by their type; the one check left is the EXTGCD constraint of R71. -/

namespace Sys2Proof

/-- R72 (4): EXTGCD writes X[RD], X[RD+1], X[RD+2], so RD is at most 5. Every other command takes any register. -/
def Instr.wellFormed : Instr → Bool
  | .nop => true
  | .mod _ _ _ => true
  | .gcd _ _ _ => true
  | .extgcd rd _ _ => decide (rd.val ≤ 5)
  | .modinv _ _ _ => true
  | .modpow _ _ _ _ => true
  | .shenc => true
  | .shdec => true
  | .afcfg => true
  | .afenc => true
  | .afdec => true
  | .paenc => true
  | .padec => true

end Sys2Proof
end

