-- ==== Sys2Proof/Decode.lean ====
section
/-! DEFINITION. Decoding a CMD write into a command or a named rejection, and encoding a command as a word
(30_encoding.md R65 to R73). -/

namespace Sys2Proof

/-- Why a CMD write is no legal command word: the clauses of R72. -/
inductive Illegal where
  /-- R72 (5): a bit of CMD[63:32] is set. -/
  | upperHalf
  /-- R72 (2): RSV is not 0. -/
  | reservedField
  /-- R72 (1): OP is not assigned in R71. -/
  | unassignedOpcode
  /-- R72 (3): a field the format does not use is not 0. -/
  | unusedField
  /-- R72 (4): EXTGCD with RD above 5. -/
  | extgcdDestination
  deriving DecidableEq, Repr

/-- OP, bits 7:0 (R67). -/
def opField (v : Word) : BitVec 8 := v.extractLsb' 0 8

/-- RD, bits 10:8 (R67). -/
def rdField (v : Word) : BitVec 3 := v.extractLsb' 8 3

/-- RS1, bits 13:11 (R67). -/
def rs1Field (v : Word) : BitVec 3 := v.extractLsb' 11 3

/-- RS2, bits 16:14 (R67). -/
def rs2Field (v : Word) : BitVec 3 := v.extractLsb' 14 3

/-- RS3, bits 19:17 (R67). -/
def rs3Field (v : Word) : BitVec 3 := v.extractLsb' 17 3

/-- RSV, bits 31:20 (R67). -/
def rsvField (v : Word) : BitVec 12 := v.extractLsb' 20 12

/-- Bits 63:32 of the CMD write (R66). -/
def upperField (v : Word) : BitVec 32 := v.extractLsb' 32 32

/-- A register field read as an unsigned 3-bit index (R69). -/
def regOf (f : BitVec 3) : RegIdx := f.toFin

/-- Format Z uses OP alone (R68). -/
def formatZ (v : Word) (i : Instr) : Except Illegal Instr :=
  if rdField v = 0 ∧ rs1Field v = 0 ∧ rs2Field v = 0 ∧ rs3Field v = 0 then .ok i else .error .unusedField

/-- Format R2 uses OP, RD, RS1 and RS2 (R68). -/
def formatR2 (v : Word) (i : RegIdx → RegIdx → RegIdx → Instr) : Except Illegal Instr :=
  if rs3Field v = 0 then .ok (i (regOf (rdField v)) (regOf (rs1Field v)) (regOf (rs2Field v)))
  else .error .unusedField

/-- Format R3 uses OP, RD, RS1, RS2 and RS3 (R68). -/
def formatR3 (v : Word) (i : RegIdx → RegIdx → RegIdx → RegIdx → Instr) : Except Illegal Instr :=
  .ok (i (regOf (rdField v)) (regOf (rs1Field v)) (regOf (rs2Field v)) (regOf (rs3Field v)))

/-- R72 (4), checked once the fields are taken apart. -/
def checkWellFormed (d : Except Illegal Instr) : Except Illegal Instr :=
  match d with
  | .ok i => if i.wellFormed then .ok i else .error .extgcdDestination
  | .error e => .error e

/-- The opcode map of R71. -/
def decodeOpcode (v : Word) : Except Illegal Instr :=
  match (opField v).toNat with
  | 0x00 => formatZ v .nop
  | 0x01 => formatR2 v .mod
  | 0x02 => formatR2 v .gcd
  | 0x03 => checkWellFormed (formatR2 v .extgcd)
  | 0x04 => formatR2 v .modinv
  | 0x05 => formatR3 v .modpow
  | 0x10 => formatZ v .shenc
  | 0x11 => formatZ v .shdec
  | 0x12 => formatZ v .afcfg
  | 0x13 => formatZ v .afenc
  | 0x14 => formatZ v .afdec
  | 0x15 => formatZ v .paenc
  | 0x16 => formatZ v .padec
  | _ => .error .unassignedOpcode

/-- The command that a CMD write of v issues, or why v is illegal (R72): total on every 64-bit value. -/
def decode (v : Word) : Except Illegal Instr :=
  if upperField v ≠ 0 then .error .upperHalf
  else if rsvField v ≠ 0 then .error .reservedField
  else decodeOpcode v

/-- The OP value of R71. -/
def Instr.opcode : Instr → BitVec 8
  | .nop => 0x00
  | .mod _ _ _ => 0x01
  | .gcd _ _ _ => 0x02
  | .extgcd _ _ _ => 0x03
  | .modinv _ _ _ => 0x04
  | .modpow _ _ _ _ => 0x05
  | .shenc => 0x10
  | .shdec => 0x11
  | .afcfg => 0x12
  | .afenc => 0x13
  | .afdec => 0x14
  | .paenc => 0x15
  | .padec => 0x16

/-- The register field that names Xi (R69). -/
def fieldOf (r : RegIdx) : BitVec 3 := BitVec.ofFin r

/-- The bit picture of R67, bit 31 on the left: RSV, RS3, RS2, RS1, RD, OP. -/
def packFields (rs3 rs2 rs1 rd : BitVec 3) (op : BitVec 8) : CmdWord :=
  (0 : BitVec 12) ++ rs3 ++ rs2 ++ rs1 ++ rd ++ op

/-- The command word of a command (R73); a field its format does not use is 0 (R68). -/
def encode (i : Instr) : CmdWord :=
  match i with
  | .mod rd rs1 rs2 => packFields 0 (fieldOf rs2) (fieldOf rs1) (fieldOf rd) i.opcode
  | .gcd rd rs1 rs2 => packFields 0 (fieldOf rs2) (fieldOf rs1) (fieldOf rd) i.opcode
  | .extgcd rd rs1 rs2 => packFields 0 (fieldOf rs2) (fieldOf rs1) (fieldOf rd) i.opcode
  | .modinv rd rs1 rs2 => packFields 0 (fieldOf rs2) (fieldOf rs1) (fieldOf rd) i.opcode
  | .modpow rd rs1 rs2 rs3 => packFields (fieldOf rs3) (fieldOf rs2) (fieldOf rs1) (fieldOf rd) i.opcode
  | .nop => packFields 0 0 0 0 i.opcode
  | .shenc => packFields 0 0 0 0 i.opcode
  | .shdec => packFields 0 0 0 0 i.opcode
  | .afcfg => packFields 0 0 0 0 i.opcode
  | .afenc => packFields 0 0 0 0 i.opcode
  | .afdec => packFields 0 0 0 0 i.opcode
  | .paenc => packFields 0 0 0 0 i.opcode
  | .padec => packFields 0 0 0 0 i.opcode

/-- The 64-bit CMD write that carries a command word: bits 63:32 are 0 (R66, R74). -/
def cmdWrite (c : CmdWord) : Word := c.setWidth 64

/-- The mask of R71 for a command's format: Z, R2 or R3. -/
def Instr.mask : Instr → CmdWord
  | .nop => 0xFFFFFFFF
  | .mod _ _ _ => 0xFFFE00FF
  | .gcd _ _ _ => 0xFFFE00FF
  | .extgcd _ _ _ => 0xFFFE00FF
  | .modinv _ _ _ => 0xFFFE00FF
  | .modpow _ _ _ _ => 0xFFF000FF
  | .shenc => 0xFFFFFFFF
  | .shdec => 0xFFFFFFFF
  | .afcfg => 0xFFFFFFFF
  | .afenc => 0xFFFFFFFF
  | .afdec => 0xFFFFFFFF
  | .paenc => 0xFFFFFFFF
  | .padec => 0xFFFFFFFF

/-- What the decoder reads from an instruction of nbits bits numbered as spec/opcode_table.json numbers them.
A command is one word of 32 bits, so its number is the number of the CMD write. -/
def decodeTableWord (nbits w : Nat) : Option Instr :=
  match decode (BitVec.ofNat 64 (w % 2 ^ nbits)) with
  | .ok i => some i
  | .error _ => none

end Sys2Proof
end

