-- ==== Sys2Proof/Config.lean ====
section
/-! DEFINITION. What an implementation of the engine fixes (00_scope.md R7; 92_eei_decisions.md D10, D11),
and the free values the spec leaves open (20_memory.md R53). -/

namespace Sys2Proof

/-- The implementation parameters of R7 and D11, carried by every state and changed by no step,
so that a claim about every state holds for every choice of them (log 7). -/
structure Config where
  /-- DMAX, the number of DATA elements: 1 to 512, default 256 (R7). -/
  dmax : Nat
  /-- KMAX, the number of KEY elements: 1 to 512, default 256 (R7). -/
  kmax : Nat
  /-- BASE, the block's base in the host's physical address map (R64, D11: open). -/
  base : Nat
  /-- IRQ_LINE, the host interrupt input that `irq` drives (R111, D11: open). -/
  irqLine : Nat
  deriving DecidableEq, Repr

/-- The default column of R7. BASE and IRQ_LINE have no default in the spec: 0 is a DESIGN CHOICE (log 7, unsafe). -/
def Config.default : Config := { dmax := 256, kmax := 256, base := 0, irqLine := 0 }

/-- The legal ranges of R7. -/
abbrev Config.wf (c : Config) : Prop :=
  1 ≤ c.dmax ∧ c.dmax ≤ 512 ∧ 1 ≤ c.kmax ∧ c.kmax ≤ 512

/-- The physical address at which the host reaches an offset of the block (R64, R114). -/
def Config.hostAddress (c : Config) (off : Offset) : Nat := c.base + off.toNat

/-- The unspecified value of the n-th drawn host read (R53; 93 U1): any W-bit value, under no law (log 4). -/
opaque Config.freeRead : Nat → Word

end Sys2Proof
end

