-- ==== Sys2Proof/Machine/State.lean ====
section
/-! DEFINITION. The state of the engine as plain data (10_state.md R16), the outside world's requests as data, the
reasons a step can stop, and the state after reset (10_state.md R41). -/

namespace Sys2Proof.Machine

/-- The error codes of 60_exceptions.md R106. Codes 7 to 15 are never produced and have no constructor
(93 V2; log 13). -/
inductive ErrCode where
  /-- 0 NONE: the last command succeeded, or none has completed since reset. -/
  | noError
  /-- 1 DOMAIN: an input that must be positive is not. -/
  | domain
  /-- 2 NOT_INVERTIBLE: the required inverse does not exist. -/
  | notInvertible
  /-- 3 INVALID_KEY: KLEN = 0. -/
  | invalidKey
  /-- 4 ILLEGAL: the command word is illegal. -/
  | illegal
  /-- 5 NOT_CONFIGURED: AFV = 0. -/
  | notConfigured
  /-- 6 LENGTH: DLEN above DMAX, or KLEN above KMAX. -/
  | length
  deriving DecidableEq, Repr

/-- STATUS by its fields (10_state.md R19). Bits 3 and 63:10 read 0 and are not held (log 13). -/
structure Status where
  /-- Bit 0, RO: from issue to completion (R20). -/
  busy : Bool
  /-- Bit 1, W1C: from completion until cleared (R21). -/
  done : Bool
  /-- Bit 2, RO: the last completed command failed (R22). -/
  err : Bool
  /-- Bits 7:4, RO: its error code (R22). -/
  errCode : ErrCode
  /-- Bit 8, RO: AFAINV holds the inverse of AFA modulo N (R23). -/
  afv : Bool
  /-- Bit 9, W1C: a host write was dropped (R24). -/
  bovr : Bool
  deriving DecidableEq, Repr

/-- DATA and KEY as listed bytes of the host address space (20_memory.md R44 to R46), in one canonical form: addresses
strictly rising. An unlisted byte has no value: it is unwritten (10_state.md R42; log 3, log 9). -/
abbrev Memory := List Host.Cell

/-- What a mapped offset names (20_memory.md R44). -/
inductive Target where
  | cmd
  | status
  | ctrl
  | x (i : RegIdx)
  | n
  | shk
  | afa
  | afb
  | afainv
  | klen
  | dlen
  | data (i : Nat)
  | key (i : Nat)
  deriving DecidableEq, Repr

/-- A request at the host bus target port (00_scope.md R15): the byte offset, and the size in bytes of a read or the
bytes of a write, lane 0 first (20_memory.md R55). The size of a write is the number of its bytes (log 8). -/
inductive Request where
  | read (off : Offset) (size : Nat)
  | write (off : Offset) (bytes : List Byte)
  deriving DecidableEq, Repr

/-- The port's response (00_scope.md R15): OKAY with the bytes read, OKAY to a write, or BUSERR. -/
inductive Response where
  | data (bytes : List Byte)
  | okay
  | busErr
  deriving DecidableEq, Repr

/-- One move of the outside world or one turn given to the ENGINE (00_scope.md R14; log 1). -/
inductive Event where
  /-- A host request reaches the port (20_memory.md R58). -/
  | bus (r : Request)
  /-- The ENGINE gets a turn: it completes the command in flight, if there is one (60_exceptions.md R103). -/
  | engine
  /-- The `rst` pin is driven to this level (70_reset_and_hazards.md R119). -/
  | pin (level : Bool)
  deriving DecidableEq, Repr

/-- The faults of the model. -/
inductive Fault where
  /-- UnwrittenRead (60_exceptions.md R118; 10_state.md R42): raised by the completion of a sequence command, and by a
  host read while BUSY = 0, that reads an unwritten DATA or KEY element. The step records it in State.fault; the step
  after it stops with it, unless `rst` is still to be asserted (70_reset_and_hazards.md R119; log 16). Safe: the chip
  goes on with an unspecified value, and no claim can rest on it. -/
  | unwrittenRead
  deriving DecidableEq, Repr

/-- The reasons the model gives no meaning. -/
inductive Refusal where
  /-- Raised by an arm of exec that has no meaning yet; no arm of this model raises it. Safe. -/
  | notModelled (mnemonic : String)
  deriving DecidableEq, Repr

/-- The architectural state (10_state.md R16), then the model's own fields. -/
structure State where
  /-- Operand registers X0 to X7 (R17). -/
  x : Vector Word 8
  /-- STATUS (R19). -/
  status : Status
  /-- CTRL.IE; CTRL's other bits read 0 and are not held (R26; log 13). -/
  ie : Bool
  /-- N, the cipher modulus (R28). -/
  n : Word
  /-- SHK, the shift key (R29). -/
  shk : Word
  /-- AFA, the affine multiplier (R30). -/
  afa : Word
  /-- AFB, the affine offset (R31). -/
  afb : Word
  /-- AFAINV, the derived inverse (R32). -/
  afainv : Word
  /-- KLEN, the key stream's length (R34). -/
  klen : Word
  /-- DLEN, the sequence's length (R35). -/
  dlen : Word
  /-- DATA, KEY and their written marks (R36, R37, R42). -/
  mem : Memory
  /-- INFLIGHT, the hidden latch of the accepted CMD write (R38). -/
  inflight : Word
  /-- The level of the `rst` pin (70_reset_and_hazards.md R119; log 6). -/
  rst : Bool
  /-- The model fault recorded and not yet cleared by reset: a faulted state is one with a fault here
  (10_state.md R42; 60_exceptions.md R118; 70_reset_and_hazards.md R119; log 16). -/
  fault : Option Fault
  /-- The model's own: the implementation parameters (00_scope.md R7; log 7). -/
  cfg : Config
  /-- The model's own: what happens next, oldest first (log 1). -/
  agenda : List Event
  /-- The model's own: the port's answer to the latest request (log 8). -/
  response : Option Response
  /-- The model's own: how many free values have been drawn (20_memory.md R53; log 4). -/
  draws : Nat
  deriving DecidableEq, Repr

/-- STATUS after reset: 0 (10_state.md R41). -/
def Status.reset : Status :=
  { busy := false, done := false, err := false, errCode := .noError, afv := false, bovr := false }

/-- The machine right after reset (10_state.md R41): every register 0, every element unwritten, no fault. INFLIGHT, which the
spec leaves unspecified, is 0 (DESIGN CHOICE, log 2). The model's own fields are as logs 1, 4, 6, 7 and 8 say. -/
def State.reset : State :=
  { x := Vector.replicate 8 0, status := Status.reset, ie := false,
    n := 0, shk := 0, afa := 0, afb := 0, afainv := 0, klen := 0, dlen := 0,
    mem := [], inflight := 0, rst := false, fault := none,
    cfg := Config.default, agenda := [], response := none, draws := 0 }

end Sys2Proof.Machine
end

