-- ==== Sys2Proof/Machine/Flags.lean ====
section
/-! DEFINITION. STATUS and CTRL as the words software sees (10_state.md R19, R26), every change of the STATUS flags
(R20 to R25), and the interrupt output (R40). -/

namespace Sys2Proof.Machine

/-- The ERRCODE value of 60_exceptions.md R106. -/
def ErrCode.code : ErrCode → BitVec 4
  | .noError => 0
  | .domain => 1
  | .notInvertible => 2
  | .invalidKey => 3
  | .illegal => 4
  | .notConfigured => 5
  | .length => 6

/-- STATUS as a 64-bit word: 63:10 zero, BOVR, AFV, ERRCODE, bit 3 zero, ERR, DONE, BUSY (R19). -/
def Status.word (st : Status) : Word :=
  (0 : BitVec 54) ++ BitVec.ofBool st.bovr ++ BitVec.ofBool st.afv ++ st.errCode.code ++ (0 : BitVec 1) ++
    BitVec.ofBool st.err ++ BitVec.ofBool st.done ++ BitVec.ofBool st.busy

/-- CTRL as a 64-bit word: IE in bit 0, the rest zero (R26). -/
def ctrlWord (ie : Bool) : Word := (0 : BitVec 63) ++ BitVec.ofBool ie

/-- STATUS at issue: BUSY set, DONE, ERR and ERRCODE cleared; AFV and BOVR unchanged (60_exceptions.md R101). -/
def Status.issued (st : Status) : Status :=
  { st with busy := true, done := false, err := false, errCode := .noError }

/-- STATUS at a completion without error (60_exceptions.md R103). -/
def Status.succeeded (st : Status) : Status :=
  { st with busy := false, done := true, err := false, errCode := .noError }

/-- STATUS at a completion with error e (60_exceptions.md R104). -/
def Status.failed (st : Status) (e : ErrCode) : Status :=
  { st with busy := false, done := true, err := true, errCode := e }

/-- STATUS after a host write of v to it: bit 1 clears DONE, bit 9 clears BOVR, nothing else (R25). -/
def Status.cleared (st : Status) (v : Word) : Status :=
  { st with done := st.done && !v.getLsbD 1, bovr := st.bovr && !v.getLsbD 9 }

/-- STATUS after a dropped host write: BOVR set (R24; 20_memory.md R52). -/
def Status.overrun (st : Status) : Status := { st with bovr := true }

/-- STATUS with AFV at a value (R23). -/
def Status.withAfv (st : Status) (b : Bool) : Status := { st with afv := b }

/-- The interrupt output `irq` = CTRL.IE and STATUS.DONE (R40; 60_exceptions.md R111). -/
def State.irq (s : State) : Bool := s.ie && s.status.done

/-- The level this block drives on a host interrupt input: `irq` on IRQ_LINE, and nothing on the others
(60_exceptions.md R111). -/
def State.drivesLine (s : State) (line : Nat) : Bool := decide (line = s.cfg.irqLine) && s.irq

end Sys2Proof.Machine
end

