-- ==== Sys2Proof/Machine/Operands.lean ====
section
/-! DEFINITION. How stored patterns are read as integers and written back (00_scope.md R9), the byte lanes of a word
(20_memory.md R55), and reading registers. -/

namespace Sys2Proof.Machine

/-- `sint_W`: the two's complement integer of a pattern (R9). -/
def sint (w : Word) : Int := w.toInt

/-- `uint_W`: the unsigned integer of a pattern (R9). -/
def uint (w : Word) : Nat := w.toNat

/-- `enc_W`: the two's complement pattern of an integer (R9). -/
def enc (z : Int) : Word := BitVec.ofInt 64 z

/-- Byte lane j of a word: bits [8j+7 : 8j] (R55). -/
def byteLane (w : Word) (j : Nat) : Byte := w.extractLsb' (8 * j) 8

/-- The 8 byte lanes of a word, lane 0 first (R55). -/
def lanes (w : Word) : List Byte :=
  [byteLane w 0, byteLane w 1, byteLane w 2, byteLane w 3, byteLane w 4, byteLane w 5, byteLane w 6, byteLane w 7]

/-- The number that bytes carry in little-endian order (R55). -/
def numberOfLanes : List Byte → Nat
  | [] => 0
  | b :: bs => b.toNat + 256 * numberOfLanes bs

/-- The word whose byte lanes these are (R55). -/
def ofLanes (bs : List Byte) : Word := BitVec.ofNat 64 (numberOfLanes bs)

/-- Operand register Xi as a pattern (R17). -/
def State.readX (s : State) (i : RegIdx) : Word := s.x[i]

/-- `x[i]`: operand register Xi read as `sint_W` (R9). -/
def State.xInt (s : State) (i : RegIdx) : Int := sint (s.readX i)

/-- The byte at an address, or none if it is unwritten (10_state.md R42; log 9). -/
def Memory.read : Memory → Nat → Option Byte
  | [], _ => none
  | (k, b) :: m, a => if k = a then some b else Memory.read m a

/-- The bytes at n addresses from a, or none if one of them is unwritten. -/
def Memory.readBytes (m : Memory) (a : Nat) : Nat → Option (List Byte)
  | 0 => some []
  | n + 1 =>
    match Memory.read m a with
    | none => none
    | some b =>
      match Memory.readBytes m (a + 1) n with
      | none => none
      | some bs => some (b :: bs)

/-- The element at byte address a: its 8 bytes in little-endian order (R55), or none if it is unwritten
(10_state.md R42; log 9). -/
def Memory.readWord (m : Memory) (a : Nat) : Option Word :=
  match Memory.readBytes m a 8 with
  | none => none
  | some bs => some (ofLanes bs)

/-- The byte address of DATA[i] (20_memory.md R45). -/
def dataAddr (i : Nat) : Nat := 0x1000 + 8 * i

/-- The byte address of KEY[i] (20_memory.md R46). -/
def keyAddr (i : Nat) : Nat := 0x2000 + 8 * i

/-- DATA[i] as a pattern, none while it is unwritten (10_state.md R36, R42). -/
def State.dataAt (s : State) (i : Nat) : Option Word := Memory.readWord s.mem (dataAddr i)

/-- KEY[i] as a pattern, none while it is unwritten (10_state.md R37, R42). -/
def State.keyAt (s : State) (i : Nat) : Option Word := Memory.readWord s.mem (keyAddr i)

/-- n elements in order from byte address a, or none if one of them is unwritten. -/
def Memory.readElems (m : Memory) (a : Nat) : Nat → Option (List Word)
  | 0 => some []
  | n + 1 =>
    match Memory.readWord m a with
    | none => none
    | some w =>
      match Memory.readElems m (a + 8) n with
      | none => none
      | some ws => some (w :: ws)

/-- DATA[0 .. DLEN-1], the input of a sequence command (41_cipher_datapath.md R83, R86). -/
def State.readSequence (s : State) : Option (List Word) := Memory.readElems s.mem (dataAddr 0) (uint s.dlen)

/-- KEY[0 .. min(KLEN, DLEN)-1], the key elements PAENC and PADEC read (41_cipher_datapath.md R86; log 11). -/
def State.readKeyStream (s : State) : Option (List Word) :=
  Memory.readElems s.mem (keyAddr 0) (min (uint s.klen) (uint s.dlen))

end Sys2Proof.Machine
end

