-- ==== Sys2Proof/Machine/Ops.lean ====
section
/-! DEFINITION. The shared operations on registers and memory, and the two ends of a command: completion without
error and `raise` (00_scope.md R9; 60_exceptions.md R103, R104). The engine takes no trap (R108): `raise` is what it has
in place of taking an exception, and `acknowledge` is what it has in place of the return (R109). -/

namespace Sys2Proof.Machine

/-- `x[i] <- z` for a pattern: operand register Xi written (00_scope.md R9; 10_state.md R17). -/
def State.writeX (s : State) (i : RegIdx) (w : Word) : State := { s with x := s.x.set i w }

/-- Writes one byte, keeping the addresses strictly rising. -/
def Memory.write : Memory → Nat → Byte → Memory
  | [], a, b => [(a, b)]
  | (k, c) :: m, a, b =>
    if a < k then (a, b) :: (k, c) :: m
    else if a = k then (a, b) :: m
    else (k, c) :: Memory.write m a b

/-- Writes bytes at consecutive addresses from a. -/
def Memory.writeBytes (m : Memory) (a : Nat) : List Byte → Memory
  | [] => m
  | b :: bs => Memory.writeBytes (Memory.write m a b) (a + 1) bs

/-- Writes the element at byte address a, little-endian (20_memory.md R55), which makes it written (10_state.md R42). -/
def Memory.writeWord (m : Memory) (a : Nat) (w : Word) : Memory := Memory.writeBytes m a (lanes w)

/-- Writes elements in order from byte address a. -/
def Memory.writeElems (m : Memory) (a : Nat) : List Word → Memory
  | [] => m
  | w :: ws => Memory.writeElems (Memory.writeWord m a w) (a + 8) ws

/-- The canonical form of a memory: addresses strictly rising. No byte is listed that an unlisted address would read
as, because an unlisted address has no value. -/
def Memory.wf : Memory → Bool
  | [] => true
  | [_] => true
  | (a, _) :: (b, c) :: m => decide (a < b) && Memory.wf ((b, c) :: m)

/-- `complete()`: the command ends without error (60_exceptions.md R103). -/
def complete (s : State) : Host.Outcome State Fault Refusal := .next { s with status := s.status.succeeded }

/-- `raise E(e)`: the command ends with error e and no result (60_exceptions.md R104). -/
def raise (e : ErrCode) (s : State) : Host.Outcome State Fault Refusal := .next { s with status := s.status.failed e }

/-- AFV <- b (10_state.md R23). -/
def State.setAfv (s : State) (b : Bool) : State := { s with status := s.status.withAfv b }

/-- Issue: INFLIGHT <- v, BUSY <- 1, DONE, ERR and ERRCODE <- 0 (60_exceptions.md R101). -/
def State.issue (s : State) (v : Word) : State := { s with inflight := v, status := s.status.issued }

/-- The host's write of v to STATUS, its way to acknowledge a completion (10_state.md R25; 60_exceptions.md R109). -/
def State.acknowledge (s : State) (v : Word) : State := { s with status := s.status.cleared v }

/-- The host's write of v to CTRL: IE <- v[0] (10_state.md R26). -/
def State.writeCtrl (s : State) (v : Word) : State := { s with ie := v.getLsbD 0 }

/-- The port answers r. -/
def State.respond (s : State) (r : Response) : State := { s with response := some r }

/-- The port answers an unspecified value: the next free value (20_memory.md R53; log 4). -/
def State.respondFree (s : State) : State :=
  { s with response := some (.data (lanes (Config.freeRead s.draws))), draws := s.draws + 1 }

end Sys2Proof.Machine
end

