-- ==== Sys2Proof/Machine/Bus.lean ====
section
/-! DEFINITION. Host accesses through the bus target port (20_memory.md R43 to R60) and the reset pin
(70_reset_and_hazards.md R119 to R121). -/

namespace Sys2Proof.Machine

/-- The single registers of the register map by their offsets (R44); none at every other offset. -/
def singleAt : Nat → Option Target
  | 0x0000 => some .cmd
  | 0x0008 => some .status
  | 0x0010 => some .ctrl
  | 0x0060 => some .n
  | 0x0068 => some .shk
  | 0x0070 => some .afa
  | 0x0078 => some .afb
  | 0x0080 => some .afainv
  | 0x0088 => some .klen
  | 0x0090 => some .dlen
  | _ => none

/-- What the offset a names in the register map of R44, for an 8-byte aligned a; none if it is unmapped (R49).
The windows of DATA and KEY end at DMAX and KMAX elements (R45, R46). -/
def targetAt (c : Config) (a : Nat) : Option Target :=
  if 0x0020 ≤ a ∧ a < 0x0060 then some (.x (Fin.ofNat 8 ((a - 0x0020) / 8)))
  else if 0x1000 ≤ a ∧ a < 0x2000 then
    if (a - 0x1000) / 8 < c.dmax then some (.data ((a - 0x1000) / 8)) else none
  else if 0x2000 ≤ a ∧ a < 0x3000 then
    if (a - 0x2000) / 8 < c.kmax then some (.key ((a - 0x2000) / 8)) else none
  else singleAt a

/-- OFF(name): the offset of a target in the register map (R44; 30_encoding.md R74). -/
def Target.offset : Target → Nat
  | .cmd => 0x0000
  | .status => 0x0008
  | .ctrl => 0x0010
  | .x i => 0x0020 + 8 * i.val
  | .n => 0x0060
  | .shk => 0x0068
  | .afa => 0x0070
  | .afb => 0x0078
  | .afainv => 0x0080
  | .klen => 0x0088
  | .dlen => 0x0090
  | .data i => 0x1000 + 8 * i
  | .key i => 0x2000 + 8 * i

/-- The target of a request, after the checks of size, alignment and mapping in that order (R47, R48, R49, R51);
none means BUSERR. -/
def checkAccess (c : Config) (off : Offset) (size : Nat) : Option Target :=
  if size ≠ 8 then none
  else if off.toNat % 8 ≠ 0 then none
  else targetAt c off.toNat

/-- The current value of a target as the host reads it; none is an unwritten element (10_state.md R42). CMD holds no
value and reads 0 (10_state.md R27). -/
def State.targetValue (s : State) : Target → Option Word
  | .cmd => some 0
  | .status => some s.status.word
  | .ctrl => some (ctrlWord s.ie)
  | .x i => some (s.readX i)
  | .n => some s.n
  | .shk => some s.shk
  | .afa => some s.afa
  | .afb => some s.afb
  | .afainv => some s.afainv
  | .klen => some s.klen
  | .dlen => some s.dlen
  | .data i => s.dataAt i
  | .key i => s.keyAt i

/-- The targets whose read is a free draw while BUSY = 1: X, AFAINV and DATA (R53). -/
def Target.drawnWhileBusy : Target → Bool
  | .cmd => false
  | .status => false
  | .ctrl => false
  | .x _ => true
  | .n => false
  | .shk => false
  | .afa => false
  | .afb => false
  | .afainv => true
  | .klen => false
  | .dlen => false
  | .data _ => true
  | .key _ => false

/-- The targets whose write is dropped while BUSY = 1 (R52): all but STATUS and CTRL. (A write to AFAINV has been
answered BUSERR before this is asked, R51.) -/
def Target.droppedWhileBusy : Target → Bool
  | .cmd => true
  | .status => false
  | .ctrl => false
  | .x _ => true
  | .n => true
  | .shk => true
  | .afa => true
  | .afb => true
  | .afainv => false
  | .klen => true
  | .dlen => true
  | .data _ => true
  | .key _ => true

/-- The targets a host may not write: AFAINV (R50). -/
def Target.readOnly : Target → Bool
  | .cmd => false
  | .status => false
  | .ctrl => false
  | .x _ => false
  | .n => false
  | .shk => false
  | .afa => false
  | .afb => false
  | .afainv => true
  | .klen => false
  | .dlen => false
  | .data _ => false
  | .key _ => false

/-- A host read of a mapped target. While BUSY = 1 it never faults: X, AFAINV and DATA are drawn, and so is an
unwritten KEY element (R53; log 5). While BUSY = 0 an unwritten element is UnwrittenRead (R54). -/
def readTarget (t : Target) (s : State) : Host.Outcome State Fault Refusal :=
  if s.status.busy && t.drawnWhileBusy then .next s.respondFree
  else
    match s.targetValue t with
    | some v => .next (s.respond (.data (lanes v)))
    | none => if s.status.busy then .next s.respondFree else .fault .unwrittenRead

/-- The effect of an accepted host write of v (R54): CMD issues, STATUS clears its W1C bits, N and AFA clear AFV
(10_state.md R33), an element becomes written. -/
def State.writeTarget (s : State) (v : Word) : Target → State
  | .cmd => s.issue v
  | .status => s.acknowledge v
  | .ctrl => s.writeCtrl v
  | .x i => s.writeX i v
  | .n => { s with n := v }.setAfv false
  | .shk => { s with shk := v }
  | .afa => { s with afa := v }.setAfv false
  | .afb => { s with afb := v }
  | .afainv => s
  | .klen => { s with klen := v }
  | .dlen => { s with dlen := v }
  | .data i => { s with mem := Memory.writeWord s.mem (dataAddr i) v }
  | .key i => { s with mem := Memory.writeWord s.mem (keyAddr i) v }

/-- BOVR <- 1 (10_state.md R24). -/
def State.dropWrite (s : State) : State := { s with status := s.status.overrun }

/-- A host write of v to a mapped target: read-only, then busy, then accepted (R50, R51, R52). -/
def storeTarget (t : Target) (v : Word) (s : State) : State :=
  if t.readOnly then s.respond .busErr
  else if s.status.busy && t.droppedWhileBusy then s.dropWrite.respond .okay
  else (s.writeTarget v t).respond .okay

/-- One host access, taking effect at once and whole (R56, R58). -/
def busAccess (r : Request) (s : State) : Host.Outcome State Fault Refusal :=
  match r with
  | .read off size =>
    match checkAccess s.cfg off size with
    | none => .next (s.respond .busErr)
    | some t => readTarget t s
  | .write off bytes =>
    match checkAccess s.cfg off bytes.length with
    | none => .next (s.respond .busErr)
    | some t => .next (storeTarget t (ofLanes bytes) s)

/-- The state while `rst` is asserted (R119, R120): the reset values, and no model fault; the parameters, the outside
world's agenda and the count of draws are no part of the chip and stay (log 6). -/
def State.asserted (s : State) : State :=
  { State.reset with rst := true, cfg := s.cfg, agenda := s.agenda, draws := s.draws }

/-- The `rst` pin at a level: asserted, it resets the block; released, it lets requests through (R119). -/
def pinEvent (level : Bool) (s : State) : State := if level then s.asserted else { s with rst := false }

/-- The first change of the `rst` pin among the events, and the events without it. -/
def pullPin : List Event → Option (Bool × List Event)
  | [] => none
  | .pin b :: es => some (b, es)
  | .engine :: es =>
    match pullPin es with
    | none => none
    | some (b, rest) => some (b, .engine :: rest)
  | .bus r :: es =>
    match pullPin es with
    | none => none
    | some (b, rest) => some (b, .bus r :: rest)

/-- The events after the first assertion of `rst` among these; none if there is no assertion. -/
def afterAssertion : List Event → Option (List Event)
  | [] => none
  | .pin true :: es => some es
  | .pin false :: es => afterAssertion es
  | .engine :: es => afterAssertion es
  | .bus _ :: es => afterAssertion es

/-- A turn of a block in a faulted state: what it does is not specified until `rst` is asserted, which clears the fault
(R119). So the next assertion is taken, without the events before it; if there is none, the run stops with the fault
(60_exceptions.md R118; log 16). -/
def faultedTurn (f : Fault) (s : State) : Host.Outcome State Fault Refusal :=
  match afterAssertion s.agenda with
  | none => .fault f
  | some rest => .next { s with agenda := rest }.asserted

/-- A request made while `rst` is asserted gets no response and waits for the pin to change (R119; 60_exceptions.md
R118): the next pin change is taken before it, and without one nothing happens (log 6). -/
def waitForPin (s : State) : State :=
  match pullPin s.agenda with
  | none => s
  | some (b, rest) => pinEvent b { s with agenda := rest }

end Sys2Proof.Machine
end

