-- ==== Sys2Proof/Machine/NumberTheory.lean ====
section
/-! DEFINITION. The number-theory commands (40_number_theory.md R75 to R82). Every computation is exact over the
integers (00_scope.md R8). -/

namespace Sys2Proof.Machine

/-- `mod(a, b)`, the canonical residue, used with b > 0 (00_scope.md R10). -/
def modZ (a b : Int) : Int := a.emod b

/-- `div(a, b)`, the floor quotient, used with a at least 0 and b > 0 (00_scope.md R11). -/
def divZ (a b : Int) : Int := a.ediv b

/-- The loop of R79: while b is not 0, (a, b) <- (b, mod(a, b)). The fuel bounds the iterations; b strictly decreases,
so fuel b is enough. -/
def gcdLoop : Nat → Int → Int → Int
  | 0, a, _ => a
  | k + 1, a, b => if b = 0 then a else gcdLoop k b (modZ a b)

/-- gcd(a, b) for positive a and b by iterative reduction (R79). -/
def gcdZ (a b : Int) : Int := gcdLoop b.toNat a b

/-- The loop of R80 over (r0, r1), (s0, s1), (t0, t1); it ends with (r0, s0, t0). The fuel bounds the iterations; r1
strictly decreases, so fuel r1 is enough. -/
def extLoop : Nat → Int → Int → Int → Int → Int → Int → Int × Int × Int
  | 0, r0, _, s0, _, t0, _ => (r0, s0, t0)
  | k + 1, r0, r1, s0, s1, t0, t1 =>
    if r1 = 0 then (r0, s0, t0)
    else
      extLoop k r1 (r0 - divZ r0 r1 * r1) s1 (s0 - divZ r0 r1 * s1) t1 (t0 - divZ r0 r1 * t1)

/-- EXTGCD-triple(a, b) = (g, x, y) for positive a and b (R80). -/
def extTriple (a b : Int) : Int × Int × Int := extLoop b.toNat a b 1 0 0 1

/-- `bitlen(e)`, the number of bits of e > 0 without leading zeros (00_scope.md R12). -/
def bitlen (e : Nat) : Nat := if e = 0 then 0 else Nat.log2 e + 1

/-- The loop of R82 over the low j bits of e, most significant first: square, then multiply when the bit is 1. -/
def powLoop (b m : Int) (e : Nat) : Nat → Int → Int
  | 0, r => r
  | j + 1, r => powLoop b m e j (if e.testBit j then modZ (modZ (r * r) m * b) m else modZ (r * r) m)

/-- b to the e modulo m for positive b, e and m (R82). -/
def powModZ (b e m : Int) : Int := powLoop b m e.toNat (bitlen e.toNat) 1

/-- `mod xd, xa, xb` (R78). -/
def execMod (rd rs1 rs2 : RegIdx) (s : State) : Host.Outcome State Fault Refusal :=
  if s.xInt rs2 ≤ 0 then raise .domain s
  else complete (s.writeX rd (enc (modZ (s.xInt rs1) (s.xInt rs2))))

/-- `gcd xd, xa, xb` (R79). -/
def execGcd (rd rs1 rs2 : RegIdx) (s : State) : Host.Outcome State Fault Refusal :=
  if s.xInt rs1 ≤ 0 ∨ s.xInt rs2 ≤ 0 then raise .domain s
  else complete (s.writeX rd (enc (gcdZ (s.xInt rs1) (s.xInt rs2))))

/-- X[RD], X[RD+1], X[RD+2] <- g, x, y (R80). -/
def State.writeTriple (s : State) (rd : RegIdx) (t : Int × Int × Int) : State :=
  ((s.writeX rd (enc t.1)).writeX (rd + 1) (enc t.2.1)).writeX (rd + 2) (enc t.2.2)

/-- `extgcd xd, xa, xb` (R80): RD above 5 is ILLEGAL, before any operand is read. -/
def execExtgcd (rd rs1 rs2 : RegIdx) (s : State) : Host.Outcome State Fault Refusal :=
  if 5 < rd.val then raise .illegal s
  else if s.xInt rs1 ≤ 0 ∨ s.xInt rs2 ≤ 0 then raise .domain s
  else complete (s.writeTriple rd (extTriple (s.xInt rs1) (s.xInt rs2)))

/-- MODINV(k, n) for positive k and n: none when gcd(k, n) is not 1, else mod(t, n) for
(g, s, t) = EXTGCD-triple(n, k), in that argument order (R81). -/
def invZ (k n : Int) : Option Int :=
  if (extTriple n k).1 = 1 then some (modZ (extTriple n k).2.2 n) else none

/-- `modinv xd, xk, xn` (R81). -/
def execModinv (rd rs1 rs2 : RegIdx) (s : State) : Host.Outcome State Fault Refusal :=
  if s.xInt rs1 ≤ 0 ∨ s.xInt rs2 ≤ 0 then raise .domain s
  else
    match invZ (s.xInt rs1) (s.xInt rs2) with
    | none => raise .notInvertible s
    | some r => complete (s.writeX rd (enc r))

/-- `modpow xd, xb, xe, xm` (R82). -/
def execModpow (rd rs1 rs2 rs3 : RegIdx) (s : State) : Host.Outcome State Fault Refusal :=
  if s.xInt rs1 ≤ 0 ∨ s.xInt rs2 ≤ 0 ∨ s.xInt rs3 ≤ 0 then raise .domain s
  else complete (s.writeX rd (enc (powModZ (s.xInt rs1) (s.xInt rs2) (s.xInt rs3))))

end Sys2Proof.Machine
end

