-- ==== Sys2Proof/Machine/Cipher.lean ====
section
/-! DEFINITION. The cipher datapath commands (41_cipher_datapath.md R83 to R99). -/

namespace Sys2Proof.Machine

/-- The checks every sequence command makes first, in order: N, then DLEN, then the command's own (R84). -/
def sequenceCheck (s : State) (own : Option ErrCode) : Option ErrCode :=
  if sint s.n ≤ 0 then some .domain
  else if s.cfg.dmax < uint s.dlen then some .length
  else own

/-- R84 (3), PAENC and PADEC: KLEN = 0, then KLEN above KMAX. -/
def keyCheck (s : State) : Option ErrCode :=
  if uint s.klen = 0 then some .invalidKey
  else if s.cfg.kmax < uint s.klen then some .length
  else none

/-- R84 (4), AFENC and AFDEC: AFV = 0. -/
def configuredCheck (s : State) : Option ErrCode :=
  if s.status.afv then none else some .notConfigured

/-- The elements of a sequence, from index i on, transformed by f of the index and the element's value. -/
def mapElems (f : Nat → Int → Int) (i : Nat) : List Word → List Word
  | [] => []
  | w :: ws => enc (f i (sint w)) :: mapElems f (i + 1) ws

/-- DATA[0 .. DLEN-1] transformed in place and the command completed; UnwrittenRead if an element is unwritten
(R83, R85, R86). -/
def transformData (f : Nat → Int → Int) (s : State) : Host.Outcome State Fault Refusal :=
  match s.readSequence with
  | none => .fault .unwrittenRead
  | some ws => complete { s with mem := Memory.writeElems s.mem (dataAddr 0) (mapElems f 0 ws) }

/-- The range guard: a value outside [0, n) is returned unchanged (R88). -/
def guarded (n v z : Int) : Int := if 0 ≤ v ∧ v < n then z else v

/-- SHENC of one element: mod(x + k', n) with k' = mod(SHK, n) (R89). -/
def shiftEnc (n shk x : Int) : Int := guarded n x (modZ (x + modZ shk n) n)

/-- SHDEC of one element: mod(y - k' + n, n) (R90). -/
def shiftDec (n shk y : Int) : Int := guarded n y (modZ (y - modZ shk n + n) n)

/-- AFENC of one element: mod(a * x + b, n), with no range guard (R93). -/
def affineEnc (n a b x : Int) : Int := modZ (a * x + b) n

/-- AFDEC of one element: mod(ai * (y - b), n), with no range guard (R94). -/
def affineDec (n ai b y : Int) : Int := modZ (ai * (y - b)) n

/-- KEY[mod(i, L)] in a key stream of length L, of which the elements in ks were read (R96). The index is below
min(L, DLEN) for every i below DLEN, so the 0 is never taken. -/
def keyFor (ks : List Word) (len i : Nat) : Int := sint (ks.getD (i % len) 0)

/-- PAENC of one element: mod(x + key, n) (R97). -/
def polyEnc (n key x : Int) : Int := guarded n x (modZ (x + key) n)

/-- PADEC of one element: mod(y - key, n) (R98). -/
def polyDec (n key y : Int) : Int := guarded n y (modZ (y - key) n)

/-- `shenc` (R89). -/
def execShenc (s : State) : Host.Outcome State Fault Refusal :=
  match sequenceCheck s none with
  | some e => raise e s
  | none => transformData (fun _ x => shiftEnc (sint s.n) (sint s.shk) x) s

/-- `shdec` (R90). -/
def execShdec (s : State) : Host.Outcome State Fault Refusal :=
  match sequenceCheck s none with
  | some e => raise e s
  | none => transformData (fun _ y => shiftDec (sint s.n) (sint s.shk) y) s

/-- `afcfg` (R92): a failure clears AFV and leaves AFAINV. -/
def execAfcfg (s : State) : Host.Outcome State Fault Refusal :=
  if sint s.n ≤ 0 then raise .domain (s.setAfv false)
  else if sint s.afa ≤ 0 then raise .domain (s.setAfv false)
  else
    match invZ (sint s.afa) (sint s.n) with
    | none => raise .notInvertible (s.setAfv false)
    | some r => complete ({ s with afainv := enc r }.setAfv true)

/-- `afenc` (R93). -/
def execAfenc (s : State) : Host.Outcome State Fault Refusal :=
  match sequenceCheck s (configuredCheck s) with
  | some e => raise e s
  | none => transformData (fun _ x => affineEnc (sint s.n) (sint s.afa) (sint s.afb) x) s

/-- `afdec` (R94). -/
def execAfdec (s : State) : Host.Outcome State Fault Refusal :=
  match sequenceCheck s (configuredCheck s) with
  | some e => raise e s
  | none => transformData (fun _ y => affineDec (sint s.n) (sint s.afainv) (sint s.afb) y) s

/-- `paenc` (R97): the key elements are read before any element is transformed (R86; log 11). -/
def execPaenc (s : State) : Host.Outcome State Fault Refusal :=
  match sequenceCheck s (keyCheck s) with
  | some e => raise e s
  | none =>
    match s.readKeyStream with
    | none => .fault .unwrittenRead
    | some ks => transformData (fun i x => polyEnc (sint s.n) (keyFor ks (uint s.klen) i) x) s

/-- `padec` (R98): the key elements are read before any element is transformed (R86; log 11). -/
def execPadec (s : State) : Host.Outcome State Fault Refusal :=
  match sequenceCheck s (keyCheck s) with
  | some e => raise e s
  | none =>
    match s.readKeyStream with
    | none => .fault .unwrittenRead
    | some ks => transformData (fun i y => polyDec (sint s.n) (keyFor ks (uint s.klen) i) y) s

end Sys2Proof.Machine
end

