-- ==== Sys2Proof/Machine/Control.lean ====
section
/-! DEFINITION. The engine control command (42_engine_control.md R100). -/

namespace Sys2Proof.Machine

/-- `nop`: complete() and nothing else (R100). -/
def execNop (s : State) : Host.Outcome State Fault Refusal := complete s

end Sys2Proof.Machine
end

