-- ==== Sys2Proof/Machine/Dispatch.lean ====
section
/-! DEFINITION. The meaning of each command at its completion: one direct call an arm (60_exceptions.md R103). -/

namespace Sys2Proof.Machine

def exec (i : Instr) (s : State) : Host.Outcome State Fault Refusal :=
  match i with
  | .nop => Sys2Proof.Machine.execNop s
  | .mod rd rs1 rs2 => Sys2Proof.Machine.execMod rd rs1 rs2 s
  | .gcd rd rs1 rs2 => Sys2Proof.Machine.execGcd rd rs1 rs2 s
  | .extgcd rd rs1 rs2 => Sys2Proof.Machine.execExtgcd rd rs1 rs2 s
  | .modinv rd rs1 rs2 => Sys2Proof.Machine.execModinv rd rs1 rs2 s
  | .modpow rd rs1 rs2 rs3 => Sys2Proof.Machine.execModpow rd rs1 rs2 rs3 s
  | .shenc => Sys2Proof.Machine.execShenc s
  | .shdec => Sys2Proof.Machine.execShdec s
  | .afcfg => Sys2Proof.Machine.execAfcfg s
  | .afenc => Sys2Proof.Machine.execAfenc s
  | .afdec => Sys2Proof.Machine.execAfdec s
  | .paenc => Sys2Proof.Machine.execPaenc s
  | .padec => Sys2Proof.Machine.execPadec s

end Sys2Proof.Machine
end

