-- ==== Sys2Proof/Machine/Engine.lean ====
section
/-! DEFINITION. The ENGINE's turn, one event of the agenda, and the record of a model fault (00_scope.md R14;
60_exceptions.md R102, R103, R118). -/

namespace Sys2Proof.Machine

/-- Completion: INFLIGHT is decoded; an illegal word completes with ILLEGAL, a command by its rule (R102, R103). -/
def completeInFlight (s : State) : Host.Outcome State Fault Refusal :=
  match decode s.inflight with
  | .ok i => exec i s
  | .error _ => raise .illegal s

/-- A turn of the ENGINE: completion, enabled exactly when BUSY = 1; otherwise the block idles and keeps all state
(R103; R117; log 14). -/
def engineTurn (s : State) : Host.Outcome State Fault Refusal :=
  if s.status.busy then completeInFlight s else .next s

/-- A request at the head of the agenda, with s.agenda the events after it: served, unless `rst` is asserted. -/
def requestTurn (r : Request) (s : State) : Host.Outcome State Fault Refusal :=
  if s.rst then .next (waitForPin { s with agenda := .bus r :: s.agenda })
  else busAccess r s

/-- One event of the agenda, with s.agenda the events after it. -/
def runEvent (e : Event) (s : State) : Host.Outcome State Fault Refusal :=
  match e with
  | .engine => engineTurn s
  | .bus r => requestTurn r s
  | .pin level => .next (pinEvent level s)

/-- The event that comes next: the oldest of the agenda, or a turn of the ENGINE when nothing is on it, so that a
command in flight is never left waiting for ever (60_exceptions.md R105; log 1). -/
def nextEvent : List Event → Event
  | [] => .engine
  | e :: _ => e

/-- A model fault raised in state s is recorded in it (10_state.md R42; log 16). -/
def recordFault (s : State) (o : Host.Outcome State Fault Refusal) : Host.Outcome State Fault Refusal :=
  match o with
  | .next t => .next t
  | .fault f => .next { s with fault := some f }
  | .refused r => .refused r

/-- A turn of a block in no faulted state: the next event, and the fault it raises recorded. -/
def ordinaryTurn (s : State) : Host.Outcome State Fault Refusal :=
  recordFault { s with agenda := s.agenda.tail }
    (runEvent (nextEvent s.agenda) { s with agenda := s.agenda.tail })

end Sys2Proof.Machine
end

