-- ==== Sys2Proof/Machine/Step.lean ====
section
/-! DEFINITION. One step: one event of the agenda, or, in a faulted state, the reset that clears the fault. -/

namespace Sys2Proof.Machine

/-- One step of the block and its surroundings (00_scope.md R14). -/
def step (s : State) : Host.Outcome State Fault Refusal :=
  match s.fault with
  | none => ordinaryTurn s
  | some f => faultedTurn f s

/-- The command of nbits bits with number w accepted as a CMD write, and the ENGINE's turn next, so that the very next
step completes exactly it (log 10). -/
def State.withFetchWord (s : State) (nbits w : Nat) : State :=
  { s.issue (BitVec.ofNat 64 (w % 2 ^ nbits)) with rst := false, fault := none, agenda := .engine :: s.agenda }

end Sys2Proof.Machine
end

