-- ==== Sys2Proof/Safety.lean ====
section
/-! DEFINITION. What counts as a safe run, the invariant of the machine, and what a command needs of the state. -/

namespace Sys2Proof.Machine

/-- A run of k steps that ends successfully: it meets no refusal, and its last state is not a faulted one
(60_exceptions.md R118: a faulted state is never the successful end of a run). -/
def State.safeFor (s : State) (k : Nat) : Prop :=
  ∃ t, Host.Core.run Sys2Proof.core k s = .next t ∧ t.fault = none

/-- The 8-byte cell that byte address a lies in is an element of DATA or KEY (20_memory.md R45, R46). -/
def isElementByte (c : Config) (a : Nat) : Prop :=
  (0x1000 ≤ a ∧ a < 0x1000 + 8 * c.dmax) ∨ (0x2000 ≤ a ∧ a < 0x2000 + 8 * c.kmax)

/-- Only bytes of DATA and KEY elements are listed (20_memory.md R44). -/
def Memory.inWindows (c : Config) (m : Memory) : Prop := ∀ a, (Memory.read m a).isSome → isElementByte c a

/-- An element is written whole or not at all (10_state.md R42; 20_memory.md R56): the bytes of one 8-byte cell are all
listed or all unlisted. -/
def Memory.wholeElems (m : Memory) : Prop :=
  ∀ a b, a / 8 = b / 8 → ((Memory.read m a).isSome ↔ (Memory.read m b).isSome)

/-- STATUS is one that the events of 10_state.md R20 to R22 can leave: while BUSY is 1, DONE, ERR and ERRCODE are 0,
and ERR is 1 exactly when ERRCODE is not 0. -/
abbrev Status.coherent (st : Status) : Prop :=
  (st.busy = true → st.done = false ∧ st.err = false) ∧ (st.err = true ↔ st.errCode ≠ .noError)

/-- While AFV is 1, AFAINV is the inverse of AFA modulo N: the canonical residue whose product with AFA is 1 modulo N
(10_state.md R23). -/
def State.inverseCached (s : State) : Prop :=
  s.status.afv = true →
    0 < sint s.n ∧ 0 < sint s.afa ∧ 0 ≤ sint s.afainv ∧ sint s.afainv < sint s.n ∧
      (sint s.afa * sint s.afainv) % sint s.n = 1 % sint s.n

/-- The values of 10_state.md R41: every register 0, every element unwritten, no interrupt. INFLIGHT, which R41 leaves
unspecified, is not named. -/
def HoldsResetValues (t : State) : Prop :=
  (∀ i, t.readX i = 0) ∧ t.status.word = 0 ∧ ctrlWord t.ie = 0 ∧ t.n = 0 ∧ t.shk = 0 ∧ t.afa = 0 ∧ t.afb = 0 ∧
    t.afainv = 0 ∧ t.klen = 0 ∧ t.dlen = 0 ∧ (∀ i, t.dataAt i = none) ∧ (∀ i, t.keyAt i = none) ∧ t.irq = false

/-- While `rst` is asserted the block holds its reset values, and no model fault (70_reset_and_hazards.md R119). -/
def State.heldInReset (s : State) : Prop := s.rst = true → HoldsResetValues s ∧ s.fault = none

/-- The invariant of the machine: it holds at reset and every step keeps it. -/
structure State.Inv (s : State) : Prop where
  cfg : s.cfg.wf
  canonical : Memory.wf s.mem = true
  inWindows : Memory.inWindows s.cfg s.mem
  whole : Memory.wholeElems s.mem
  status : s.status.coherent
  inverse : s.inverseCached
  reset : s.heldInReset

/-- Every element the sequence commands read of DATA is written (41_cipher_datapath.md R86). -/
abbrev State.dataWritten (s : State) : Prop := ∀ i, i < uint s.dlen → (s.dataAt i).isSome

/-- Every element PAENC and PADEC read of KEY is written (41_cipher_datapath.md R86). -/
abbrev State.keyWritten (s : State) : Prop := ∀ j, j < min (uint s.klen) (uint s.dlen) → (s.keyAt j).isSome

/-- The checks that every sequence command makes pass: N > 0 and DLEN at most DMAX (41_cipher_datapath.md R84). -/
abbrev State.sequenceReady (s : State) : Prop := 0 < sint s.n ∧ uint s.dlen ≤ s.cfg.dmax

/-- The checks of PAENC and PADEC on KLEN pass (41_cipher_datapath.md R84). -/
abbrev State.keyReady (s : State) : Prop := 0 < uint s.klen ∧ uint s.klen ≤ s.cfg.kmax

end Sys2Proof.Machine
end

