-- ==== Sys2Proof/Certificates/Slice0/Obligations.lean ====
section
/-! DEFINITION. The statements about the engine, from the numbered rules of spec/. Each holds in every state that meets
its hypotheses, with every choice of DMAX and KMAX, every agenda and every free value. -/

namespace Sys2Proof.Machine

/-! ### The words the statements share -/

/-- The command completed without error: BUSY 0, DONE 1, ERR 0, ERRCODE 0, and AFV and BOVR as before
(60_exceptions.md R103; 10_state.md R24, R39). -/
def CompletedOk (s t : State) : Prop :=
  t.status.busy = false ∧ t.status.done = true ∧ t.status.err = false ∧ t.status.errCode = .noError ∧
    t.status.afv = s.status.afv ∧ t.status.bovr = s.status.bovr

/-- The command completed with error e, with AFV and BOVR as before, and nothing but STATUS differs
(60_exceptions.md R104, R108). -/
def FailedWith (e : ErrCode) (s t : State) : Prop :=
  t.status.busy = false ∧ t.status.done = true ∧ t.status.err = true ∧ t.status.errCode = e ∧
    t.status.afv = s.status.afv ∧ t.status.bovr = s.status.bovr ∧ t = { s with status := t.status }

/-- The frame of a number-theory command with destinations ds: no other operand register, no other field of the state
and no byte of memory changes, and the command completed without error. -/
def WroteOnly (ds : List RegIdx) (s t : State) : Prop :=
  CompletedOk s t ∧ t = { s with x := t.x, status := t.status } ∧ (∀ r, r ∉ ds → t.readX r = s.readX r) ∧
    ∀ a, Memory.read t.mem a = Memory.read s.mem a

/-- The result and the frame of a sequence command: each DATA[i], i < DLEN, goes from a pattern x to a pattern y with
R i x y; every byte outside DATA[0 .. DLEN-1] and every other field but STATUS stays; no error. -/
def Transformed (R : Nat → Word → Word → Prop) (s t : State) : Prop :=
  CompletedOk s t ∧ t = { s with mem := t.mem, status := t.status } ∧
    (∀ i, i < uint s.dlen → ∃ x y, s.dataAt i = some x ∧ t.dataAt i = some y ∧ R i x y) ∧
    ∀ a, a < dataAddr 0 ∨ dataAddr (uint s.dlen) ≤ a → Memory.read t.mem a = Memory.read s.mem a

/-- The range guard on an element x that becomes y: in [0, N) it becomes z, outside it stays (R88). -/
def GuardedBy (n : Word) (z : Int) (x y : Word) : Prop :=
  (0 ≤ sint x ∧ sint x < sint n → sint y = z) ∧ (¬(0 ≤ sint x ∧ sint x < sint n) → y = x)

/-- The command answers a next state in which it has failed with e. -/
def Fails (i : Instr) (e : ErrCode) (s : State) : Prop := ∃ t, exec i s = .next t ∧ FailedWith e s t

/-- The first two checks of R84: N, then DLEN. -/
def FailsSharedChecks (i : Instr) (s : State) : Prop :=
  (sint s.n ≤ 0 → Fails i .domain s) ∧ (0 < sint s.n → s.cfg.dmax < uint s.dlen → Fails i .length s)

/-- The checks of R84 on KLEN. -/
def FailsKeyChecks (i : Instr) (s : State) : Prop :=
  (s.sequenceReady → uint s.klen = 0 → Fails i .invalidKey s) ∧
    (s.sequenceReady → s.cfg.kmax < uint s.klen → Fails i .length s)

/-- The five number-theory commands. -/
def numberTheoryCommand : Instr → Bool
  | .mod _ _ _ => true
  | .gcd _ _ _ => true
  | .extgcd _ _ _ => true
  | .modinv _ _ _ => true
  | .modpow _ _ _ _ => true
  | .nop => false
  | .shenc => false
  | .shdec => false
  | .afcfg => false
  | .afenc => false
  | .afdec => false
  | .paenc => false
  | .padec => false

/-- The six sequence commands of R83. -/
def sequenceCommands : List Instr := [.shenc, .shdec, .afenc, .afdec, .paenc, .padec]

/-- A target that the register map maps under parameters c (R44, R45, R46). -/
def Mapped (c : Config) : Target → Prop
  | .data i => i < c.dmax
  | .key i => i < c.kmax
  | _ => True

/-- A host read of 8 bytes at a target's offset. -/
def readOf (t : Target) : Request := .read (BitVec.ofNat 14 t.offset) 8

/-- A host write of v to a target's offset. -/
def writeOf (t : Target) (v : Word) : Request := .write (BitVec.ofNat 14 t.offset) (lanes v)

/-- The targets that hold a value the host may write whole: X, N, SHK, AFA, AFB, KLEN, DLEN, DATA, KEY. -/
def Storable (t : Target) : Prop := t ≠ .cmd ∧ t ≠ .status ∧ t ≠ .ctrl ∧ t ≠ .afainv

/-- The offsets that R49 lists as unmapped. -/
def UnmappedOffset (c : Config) (a : Nat) : Prop :=
  (0x0018 ≤ a ∧ a < 0x0020) ∨ (0x0098 ≤ a ∧ a ≤ 0x0FFF) ∨ (0x1000 + 8 * c.dmax ≤ a ∧ a ≤ 0x1FFF) ∨
    (0x2000 + 8 * c.kmax ≤ a ∧ a ≤ 0x2FFF) ∨ (0x3000 ≤ a ∧ a ≤ 0x3FFF)

/-- The five clauses of R72. -/
def LegalWord (v : Word) : Prop :=
  (opField v).toNat ∈ [0x00, 0x01, 0x02, 0x03, 0x04, 0x05, 0x10, 0x11, 0x12, 0x13, 0x14, 0x15, 0x16] ∧
    rsvField v = 0 ∧
    ((opField v).toNat ∈ [0x01, 0x02, 0x03, 0x04] → rs3Field v = 0) ∧
    ((opField v).toNat ∈ [0x00, 0x10, 0x11, 0x12, 0x13, 0x14, 0x15, 0x16] →
      rdField v = 0 ∧ rs1Field v = 0 ∧ rs2Field v = 0 ∧ rs3Field v = 0) ∧
    ((opField v).toNat = 0x03 → (rdField v).toNat ≤ 5) ∧
    upperField v = 0

/-- The ENGINE has the next turn: the agenda gives it, or is empty. -/
def EngineNext (s : State) : Prop := s.agenda = [] ∨ ∃ rest, s.agenda = .engine :: rest

/-- The step from s is the outcome o of its event, with a fault of the event recorded in u, which is s with the event
taken off the agenda (10_state.md R42; that the record stands in a field of the state is the model's choice, log 16). -/
def StepIs (s u : State) (o : Host.Outcome State Fault Refusal) : Prop :=
  (∀ t, o = .next t → step s = .next t) ∧ (∀ f, o = .fault f → step s = .next { u with fault := some f }) ∧
    ∀ r, o = .refused r → step s = .refused r

/-- The extended Euclid recursion of 40_number_theory.md R80: EE(a, 0) = (a, 1, 0) and
EE(a, b) = (g, y1, x1 - div(a, b) * y1) where (g, x1, y1) = EE(b, mod(a, b)); the fuel bounds its depth. -/
def extRec : Nat → Int → Int → Int × Int × Int
  | 0, a, _ => (a, 1, 0)
  | k + 1, a, b =>
    if b = 0 then (a, 1, 0)
    else
      let r := extRec k b (a % b)
      (r.1, r.2.2, r.2.1 - a / b * r.2.2)

end Sys2Proof.Machine

open Sys2Proof Sys2Proof.Machine

/-! ### Encoding -/

/-- Words written out from the fields of R67 and the opcodes of R71 (the vectors of 95_test_vectors.md) decode to the
commands they stand for, and illegal words decode to none. -/
def Obligations.SpecWordsDecodeToTheirCommands : Prop :=
  decode 0x00000000 = .ok .nop ∧ decode 0x00004301 = .ok (.mod 3 0 1) ∧ decode 0x00004202 = .ok (.gcd 2 0 1) ∧
    decode 0x0001F503 = .ok (.extgcd 5 6 7) ∧ decode 0x00005404 = .ok (.modinv 4 2 1) ∧
    decode 0x00044305 = .ok (.modpow 3 0 1 2) ∧ decode 0x00000010 = .ok .shenc ∧ decode 0x00000012 = .ok .afcfg ∧
    decode 0x00000014 = .ok .afdec ∧ decode 0x00000016 = .ok .padec ∧
    decode 0x00004603 = .error .extgcdDestination ∧ decode 0x00000112 = .error .unusedField ∧
    decode 0x00100000 = .error .reservedField ∧ decode 0x00000006 = .error .unassignedOpcode ∧
    decode 0x0000000100000000 = .error .upperHalf

/-- The decoder reads back the word of every well-formed command, with every operand (R67, R68, R71, R73). -/
def Obligations.DecodeOfEncodeIsTheCommand : Prop :=
  ∀ i : Instr, i.wellFormed = true → decode (cmdWrite (encode i)) = .ok i

/-- Every word that decodes is the encoding of the well-formed command it decodes to: no bit is dropped, and no
command has two words (R65 to R72). -/
def Obligations.DecodedWordIsItsEncoding : Prop :=
  ∀ (v : Word) (i : Instr), decode v = .ok i → i.wellFormed = true ∧ cmdWrite (encode i) = v

/-- R71's match and mask: a word with an empty upper half decodes exactly when it matches some command's mask and, for
EXTGCD, has RD at most 5; and the command it decodes to is one with that opcode. -/
def Obligations.DecodingAgreesWithMatchAndMask : Prop :=
  (∀ v : Word, (∃ i, decode v = .ok i) ↔
    upperField v = 0 ∧
      ∃ i : Instr, v.setWidth 32 &&& i.mask = i.opcode.setWidth 32 ∧ (i.opcode = 0x03 → (rdField v).toNat ≤ 5)) ∧
  ∀ (v : Word) (i : Instr), decode v = .ok i → i.opcode = opField v

/-- R72, R66 and R102: a word decodes exactly when the five clauses hold; an illegal word is accepted while BUSY = 0
like any other, and its completion reports ILLEGAL and changes nothing but STATUS, whatever else the state holds. -/
def Obligations.IllegalWordCompletesWithIllegal : Prop :=
  (∀ v : Word, (∃ i, decode v = .ok i) ↔ LegalWord v) ∧
  (∀ (s : State) (v : Word), ¬LegalWord v → s.status.busy = false →
    ∃ t, busAccess (writeOf .cmd v) s = .next t ∧ t.status.busy = true ∧ t.inflight = v ∧
      t.response = some .okay) ∧
  (∀ s : State, s.status.busy = true → ¬LegalWord s.inflight →
    ∃ t, engineTurn s = .next t ∧ FailedWith .illegal s t)

/-! ### The step -/

/-- When no fault is recorded, the ENGINE has the next turn, a command is in flight and INFLIGHT decodes to i, the step
is exec of i, with the turn taken off the agenda, and a fault of it recorded (R102, R103, R42). -/
def Obligations.StepRunsTheDecodedCommand : Prop :=
  ∀ (s : State) (i : Instr), s.fault = none → s.status.busy = true → decode s.inflight = .ok i → EngineNext s →
    StepIs s { s with agenda := s.agenda.tail } (exec i { s with agenda := s.agenda.tail })

/-- When no fault is recorded, the step serves the oldest request when `rst` is low and records a fault of it, idles when
nothing is to do, and releases the `rst` pin as the agenda says (R14, R42, R58, R117, R119). -/
def Obligations.StepServesTheOldestEvent : Prop :=
  ∀ s : State, s.fault = none →
    (∀ r rest, s.agenda = .bus r :: rest → s.rst = false →
      StepIs s { s with agenda := rest } (busAccess r { s with agenda := rest })) ∧
    (s.agenda = [] → s.status.busy = false → step s = .next s) ∧
    (∀ rest, s.agenda = .engine :: rest → s.status.busy = false → step s = .next { s with agenda := rest }) ∧
    (∀ rest, s.agenda = .pin false :: rest → step s = .next { s with agenda := rest, rst := false })

/-- A command written to CMD while the block is idle, and a turn of the ENGINE after it, run that very command on the
registers and memory as they stood (R27, R38, R101, R103). -/
def Obligations.CmdWriteThenTurnRunsTheCommand : Prop :=
  ∀ (s : State) (i : Instr) (rest : List Event), i.wellFormed = true → s.fault = none → s.status.busy = false →
    s.rst = false → s.agenda = .bus (writeOf .cmd (cmdWrite (encode i))) :: .engine :: rest →
    ∃ u, step s = .next u ∧
      u = { s with
        inflight := cmdWrite (encode i)
        status := { s.status with busy := true, done := false, err := false, errCode := .noError }
        agenda := .engine :: rest
        response := some .okay } ∧
      StepIs u { u with agenda := rest } (exec i { u with agenda := rest })

/-! ### Reset and the invariant -/

/-- R41: after reset every register holds its value of the table, and asserting `rst` brings every state there, a
command in flight included. (INFLIGHT, which the table leaves unspecified, is not named.) And R119: it clears a model
fault. From a faulted state, the first assertion among the events does so, whatever events come before it (that these are
passed over is the model's choice, log 16). -/
def Obligations.ResetLeavesTheValuesOfTheTable : Prop :=
  HoldsResetValues State.reset ∧ State.reset.fault = none ∧
  (∀ (s : State) (rest : List Event), s.agenda = .pin true :: rest →
    ∃ t, step s = .next t ∧ HoldsResetValues t ∧ t.status.busy = false ∧ t.fault = none ∧ t.cfg = s.cfg ∧
      t.agenda = rest) ∧
  ∀ (s : State) (f : Fault) (before after : List Event), s.fault = some f → s.agenda = before ++ .pin true :: after →
    Event.pin true ∉ before →
    ∃ t, step s = .next t ∧ HoldsResetValues t ∧ t.status.busy = false ∧ t.fault = none ∧ t.rst = true ∧
      t.cfg = s.cfg ∧ t.agenda = after

/-- A request made while `rst` is asserted gets no response until the pin changes: without a pin change on the agenda
the step changes nothing, and with one the first change is taken before the request, which stays first (R118, R119;
the order in which the pin and the request are taken is the model's choice, log 6). -/
def Obligations.RequestDuringResetWaits : Prop :=
  ∀ (s : State) (r : Request) (rest : List Event), s.fault = none → s.rst = true → s.agenda = .bus r :: rest →
    ((∀ b, Event.pin b ∉ rest) → step s = .next s) ∧
    (∀ before after b, rest = before ++ .pin b :: after → (∀ c, Event.pin c ∉ before) →
      ∃ t, step s = .next t ∧ t.agenda = .bus r :: (before ++ after) ∧ t.rst = b ∧
        (b = false → t.response = s.response) ∧ (b = true → t.response = none))

/-- The reset state meets the invariant of Sys2Proof/Safety.lean. -/
def Obligations.ResetStateMeetsTheInvariant : Prop := State.reset.Inv

/-- Every step keeps the invariant: the parameters stay legal, memory keeps its canonical form and lists only whole
elements of DATA and KEY, STATUS stays coherent, AFV = 1 means that AFAINV inverts AFA modulo N, and a block held in
reset holds the values of R41, INFLIGHT not among them, and no model fault (R7, R42, R44, R20 to R23, R119). -/
def Obligations.StepKeepsTheInvariant : Prop := ∀ s t : State, s.Inv → step s = .next t → t.Inv

/-! ### The host bus -/

/-- R47: an access of a size other than 8 bytes gets BUSERR and has no effect. -/
def Obligations.AccessOfAnotherSizeGetsBusErr : Prop :=
  ∀ (s : State) (off : Offset),
    (∀ size, size ≠ 8 → busAccess (.read off size) s = .next { s with response := some .busErr }) ∧
    (∀ bytes, bytes.length ≠ 8 → busAccess (.write off bytes) s = .next { s with response := some .busErr })

/-- R48: an 8-byte access at an offset that is no multiple of 8 gets BUSERR and has no effect. -/
def Obligations.MisalignedAccessGetsBusErr : Prop :=
  ∀ (s : State) (off : Offset) (v : Word), off.toNat % 8 ≠ 0 →
    busAccess (.read off 8) s = .next { s with response := some .busErr } ∧
    busAccess (.write off (lanes v)) s = .next { s with response := some .busErr }

/-- R49: an access at an unmapped offset gets BUSERR and has no effect. -/
def Obligations.UnmappedOffsetGetsBusErr : Prop :=
  ∀ (s : State) (off : Offset) (v : Word), UnmappedOffset s.cfg off.toNat →
    busAccess (.read off 8) s = .next { s with response := some .busErr } ∧
    busAccess (.write off (lanes v)) s = .next { s with response := some .busErr }

/-- R44, R45, R46: an aligned offset names exactly the target whose offset it is in the register map, DATA[i] for
i < DMAX and KEY[i] for i < KMAX; the tails of the windows name nothing. -/
def Obligations.RegisterMapIsExact : Prop :=
  ∀ c : Config, c.wf →
    (∀ (a : Nat) (t : Target), a % 8 = 0 → (targetAt c a = some t ↔ a = t.offset ∧ Mapped c t)) ∧
    (∀ a, 0x1000 + 8 * c.dmax ≤ a ∧ a ≤ 0x1FFF → targetAt c a = none) ∧
    (∀ a, 0x2000 + 8 * c.kmax ≤ a ∧ a ≤ 0x2FFF → targetAt c a = none)

/-- R50: in every state, busy or not, a write to AFAINV gets BUSERR and has no effect, a read of CMD gets 0, and a
write to STATUS gets OKAY and has the effect of R25. -/
def Obligations.AfainvIsReadOnlyAndCmdReadsZero : Prop :=
  ∀ (s : State) (v : Word),
    busAccess (writeOf .afainv v) s = .next { s with response := some .busErr } ∧
    busAccess (readOf .cmd) s = .next { s with response := some (.data (lanes 0)) } ∧
    busAccess (writeOf .status v) s =
      .next { s with
        status := { s.status with
          done := if v.getLsbD 1 then false else s.status.done
          bovr := if v.getLsbD 9 then false else s.status.bovr }
        response := some .okay }

/-- R101: a CMD write of any v while BUSY = 0 latches v, sets BUSY, clears DONE, ERR and ERRCODE, leaves BOVR, AFV and
every other register, drops `irq` and gets OKAY. -/
def Obligations.CmdWriteWhileIdleIssues : Prop :=
  ∀ (s : State) (v : Word), s.status.busy = false →
    ∃ t, busAccess (writeOf .cmd v) s = .next t ∧
      t = { s with
        inflight := v
        status := { s.status with busy := true, done := false, err := false, errCode := .noError }
        response := some .okay } ∧
      t.irq = false

/-- R52: while BUSY = 1, a write to a mapped target other than STATUS, CTRL and AFAINV changes nothing but BOVR, which
it sets, and gets OKAY; writes to STATUS and CTRL have their effect. -/
def Obligations.WritesWhileBusyAreDropped : Prop :=
  ∀ (s : State) (v : Word), s.cfg.wf → s.status.busy = true →
    (∀ t : Target, Mapped s.cfg t → t ≠ .status → t ≠ .ctrl → t ≠ .afainv →
      busAccess (writeOf t v) s =
        .next { s with status := { s.status with bovr := true }, response := some .okay }) ∧
    busAccess (writeOf .status v) s =
      .next { s with
        status := { s.status with
          done := if v.getLsbD 1 then false else s.status.done
          bovr := if v.getLsbD 9 then false else s.status.bovr }
        response := some .okay } ∧
    busAccess (writeOf .ctrl v) s = .next { s with ie := v.getLsbD 0, response := some .okay }

/-- While BUSY = 1, a read of a mapped X, AFAINV or DATA[i] gets OKAY with a free value, and so does one of an unwritten
KEY[i]; a read of STATUS, CTRL, CMD, N, SHK, AFA, AFB, KLEN, DLEN or a written KEY[i] gets its current value; and no read
faults (R53). That the free value is the next draw of the model's own counter is the model's choice (log 4), and that an
unwritten KEY[i] gets one is read from R53 by inference (log 5). -/
def Obligations.ReadsWhileBusyAreFreeOrCurrent : Prop :=
  ∀ s : State, s.cfg.wf → s.status.busy = true →
    (∀ t : Target, Mapped s.cfg t → ((∃ i, t = .x i) ∨ t = .afainv ∨ ∃ i, t = .data i) →
      busAccess (readOf t) s =
        .next { s with response := some (.data (lanes (Config.freeRead s.draws))), draws := s.draws + 1 }) ∧
    busAccess (readOf .status) s = .next { s with response := some (.data (lanes s.status.word)) } ∧
    busAccess (readOf .ctrl) s = .next { s with response := some (.data (lanes (ctrlWord s.ie))) } ∧
    busAccess (readOf .cmd) s = .next { s with response := some (.data (lanes 0)) } ∧
    busAccess (readOf .n) s = .next { s with response := some (.data (lanes s.n)) } ∧
    busAccess (readOf .shk) s = .next { s with response := some (.data (lanes s.shk)) } ∧
    busAccess (readOf .afa) s = .next { s with response := some (.data (lanes s.afa)) } ∧
    busAccess (readOf .afb) s = .next { s with response := some (.data (lanes s.afb)) } ∧
    busAccess (readOf .klen) s = .next { s with response := some (.data (lanes s.klen)) } ∧
    busAccess (readOf .dlen) s = .next { s with response := some (.data (lanes s.dlen)) } ∧
    (∀ i w, i < s.cfg.kmax → s.keyAt i = some w →
      busAccess (readOf (.key i)) s = .next { s with response := some (.data (lanes w)) }) ∧
    (∀ i, i < s.cfg.kmax → s.keyAt i = none →
      busAccess (readOf (.key i)) s =
        .next { s with response := some (.data (lanes (Config.freeRead s.draws))), draws := s.draws + 1 }) ∧
    ∀ off size, ∃ t, busAccess (.read off size) s = .next t

/-- A write of v to a register or element while BUSY = 0 gets OKAY, and the next read of it gets v (R44, R58). -/
def Obligations.AcceptedWriteIsReadBack : Prop :=
  ∀ (s : State) (t : Target) (v : Word), s.cfg.wf → Mapped s.cfg t → Storable t → s.status.busy = false →
    ∃ u, busAccess (writeOf t v) s = .next u ∧ u.response = some .okay ∧
      busAccess (readOf t) u = .next { u with response := some (.data (lanes v)) }

/-- A write to a register or element while BUSY = 0 changes no other mapped register or element, no STATUS flag but AFV
(cleared by N and AFA), and no byte of memory outside the element written (R33, R54). -/
def Obligations.AcceptedWriteChangesOnlyItsTarget : Prop :=
  ∀ (s : State) (t : Target) (v : Word), s.cfg.wf → Mapped s.cfg t → Storable t → s.status.busy = false →
    ∃ u, busAccess (writeOf t v) s = .next u ∧
      (∀ t', Mapped s.cfg t' → t' ≠ t → t' ≠ .status → u.targetValue t' = s.targetValue t') ∧
      u.status = { s.status with afv := if t = .n ∨ t = .afa then false else s.status.afv } ∧
      u.inflight = s.inflight ∧ u.rst = s.rst ∧ u.fault = s.fault ∧ u.cfg = s.cfg ∧ u.agenda = s.agenda ∧ u.draws = s.draws ∧
      ∀ a, (¬∃ i, (t = .data i ∧ dataAddr i ≤ a ∧ a < dataAddr i + 8) ∨ (t = .key i ∧ keyAddr i ≤ a ∧ a < keyAddr i + 8)) →
        Memory.read u.mem a = Memory.read s.mem a

/-- R33: an accepted write to N or AFA clears AFV whatever value it writes; one dropped while BUSY = 1 changes neither
AFV nor the register (it sets BOVR, R52). -/
def Obligations.WriteToNOrAfaClearsAfv : Prop :=
  ∀ (s : State) (t : Target) (v : Word), t = .n ∨ t = .afa →
    (s.status.busy = false → ∃ u, busAccess (writeOf t v) s = .next u ∧ u.status.afv = false) ∧
    (s.status.busy = true → ∃ u, busAccess (writeOf t v) s = .next u ∧
      u = { s with status := { s.status with bovr := true }, response := u.response })

/-- R25: a write of v to STATUS, busy or not, clears DONE when v[1] = 1 and BOVR when v[9] = 1, and changes nothing
else. -/
def Obligations.StatusWriteClearsDoneAndBovrOnly : Prop :=
  ∀ (s : State) (v : Word),
    busAccess (writeOf .status v) s =
      .next { s with
        status := { s.status with
          done := if v.getLsbD 1 then false else s.status.done
          bovr := if v.getLsbD 9 then false else s.status.bovr }
        response := some .okay }

/-- R26: IE is 0 after reset; a write of v to CTRL, busy or not, sets IE to v[0] and changes nothing else; a read of CTRL
then gets IE in bit 0 and 0 in bits 63:1. -/
def Obligations.CtrlHoldsTheInterruptEnableOnly : Prop :=
  State.reset.ie = false ∧ ∀ (s : State) (v : Word),
    ∃ t, busAccess (writeOf .ctrl v) s = .next t ∧ t = { s with ie := v.getLsbD 0, response := some .okay } ∧
      ∃ w : Word, busAccess (readOf .ctrl) t = .next { t with response := some (.data (lanes w)) } ∧
        w.getLsbD 0 = v.getLsbD 0 ∧ ∀ k, 1 ≤ k → w.getLsbD k = false

/-- R19: a read of STATUS, busy or not, gets BUSY in bit 0, DONE in 1, ERR in 2, ERRCODE in 7:4, AFV in 8, BOVR in 9, and
0 in bit 3 and bits 63:10. -/
def Obligations.StatusReadHasTheFieldLayout : Prop :=
  ∀ s : State, ∃ w : Word, busAccess (readOf .status) s = .next { s with response := some (.data (lanes w)) } ∧
    w.getLsbD 0 = s.status.busy ∧ w.getLsbD 1 = s.status.done ∧ w.getLsbD 2 = s.status.err ∧ w.getLsbD 3 = false ∧
    w.extractLsb' 4 4 = s.status.errCode.code ∧ w.getLsbD 8 = s.status.afv ∧ w.getLsbD 9 = s.status.bovr ∧
    ∀ k, 10 ≤ k → w.getLsbD k = false

/-- A host read of an unwritten DATA or KEY element while BUSY = 0 is the fault UnwrittenRead (R42, R54), which the step
then records (log 16). -/
def Obligations.HostReadOfUnwrittenElementFaults : Prop :=
  ∀ (s : State) (i : Nat), s.cfg.wf → s.status.busy = false →
    (i < s.cfg.dmax → s.dataAt i = none → busAccess (readOf (.data i)) s = .fault .unwrittenRead) ∧
    (i < s.cfg.kmax → s.keyAt i = none → busAccess (readOf (.key i)) s = .fault .unwrittenRead)

/-- A host read has no side effect: it changes nothing but the answer, and while BUSY = 0 it draws nothing (R54). -/
def Obligations.HostReadChangesNothing : Prop :=
  ∀ (s t : State) (off : Offset) (size : Nat), busAccess (.read off size) s = .next t →
    t = { s with response := t.response, draws := t.draws } ∧ (s.status.busy = false → t.draws = s.draws)

/-- `irq` rises only when a command completes, or when the host sets IE while DONE = 1 (R40, R111). -/
def Obligations.IrqRisesOnlyAtCompletionOrEnable : Prop :=
  ∀ s t : State, step s = .next t → s.irq = false → t.irq = true →
    (s.status.busy = true ∧ t.status.busy = false ∧ t.status.done = true ∧ EngineNext s) ∨
    (s.status.done = true ∧ s.ie = false ∧
      ∃ bytes rest, s.agenda = .bus (.write 0x0010 bytes) :: rest ∧ (ofLanes bytes).getLsbD 0 = true)

/-! ### The whole machine -/

/-- R20: BUSY goes from 0 to 1 only by an accepted CMD write, and from 1 to 0 only by the completion of the command or
by reset. -/
def Obligations.BusyChangesOnlyByIssueCompletionOrReset : Prop :=
  ∀ s t : State, step s = .next t →
    (s.status.busy = false → t.status.busy = true →
      s.rst = false ∧ ∃ bytes rest, s.agenda = .bus (.write 0x0000 bytes) :: rest ∧ bytes.length = 8 ∧
        t.inflight = ofLanes bytes) ∧
    (s.status.busy = true → t.status.busy = false →
      (EngineNext s ∧ t.status.done = true) ∨ (t.rst = true ∧ HoldsResetValues t))

/-- Between issue and completion no step changes the command latched or an input it can read, so reading the inputs at
completion is reading them at issue (R38, R52, R62). -/
def Obligations.InputsStandStillWhileBusy : Prop :=
  ∀ s t : State, step s = .next t → s.status.busy = true → t.status.busy = true →
    t.inflight = s.inflight ∧ t.x = s.x ∧ t.n = s.n ∧ t.shk = s.shk ∧ t.afa = s.afa ∧ t.afb = s.afb ∧
      t.afainv = s.afainv ∧ t.klen = s.klen ∧ t.dlen = s.dlen ∧ t.mem = s.mem ∧ t.status.afv = s.status.afv

/-- Every command that answers a next state has ended: BUSY 0, DONE 1, ERR and ERRCODE in step, BOVR as before, AFV and
AFAINV as before but for AFCFG, and nothing changed but X, AFAINV, DATA[0 .. DLEN-1] and STATUS, DATA by the sequence
commands alone (R39, R83, R103, R104). -/
def Obligations.EveryCommandEndsAndWritesNoOtherState : Prop :=
  ∀ (i : Instr) (s t : State), exec i s = .next t →
    t.status.busy = false ∧ t.status.done = true ∧ (t.status.err = true ↔ t.status.errCode ≠ .noError) ∧
      t.status.bovr = s.status.bovr ∧ (i ≠ .afcfg → t.status.afv = s.status.afv ∧ t.afainv = s.afainv) ∧
      t = { s with x := t.x, afainv := t.afainv, mem := t.mem, status := t.status } ∧
      (∀ a, a < dataAddr 0 ∨ dataAddr (uint s.dlen) ≤ a → Memory.read t.mem a = Memory.read s.mem a) ∧
      (i ∉ sequenceCommands → t.mem = s.mem)

/-- R104: `raise` sets BUSY 0, DONE 1, ERR 1 and ERRCODE; a command that ends with ERR = 1 has written no register, no
DATA element and no AFAINV, and has kept AFV unless it is AFCFG, which clears it. -/
def Obligations.ErroringCommandWritesOnlyStatus : Prop :=
  (∀ (e : ErrCode) (s : State),
    raise e s = .next { s with status := { s.status with busy := false, done := true, err := true, errCode := e } }) ∧
  ∀ (i : Instr) (s t : State), exec i s = .next t → t.status.err = true →
    t = { s with status := t.status } ∧ t.status.busy = false ∧ t.status.done = true ∧
      t.status.bovr = s.status.bovr ∧ (i ≠ .afcfg → t.status.afv = s.status.afv) ∧
      (i = .afcfg → t.status.afv = false)

/-- No command writes KEY: every byte from the KEY window on reads as before (R37). -/
def Obligations.NoCommandWritesKey : Prop :=
  ∀ (i : Instr) (s t : State), s.cfg.wf → exec i s = .next t →
    ∀ a, keyAddr 0 ≤ a → Memory.read t.mem a = Memory.read s.mem a

/-- Only PAENC and PADEC read KEY: every other command gives the same next state, KEY apart, from two states that differ
in KEY only (R37). -/
def Obligations.OnlyPolyalphabeticCommandsReadKey : Prop :=
  ∀ (i : Instr) (s t : State) (m : Memory), i ≠ .paenc → i ≠ .padec → s.cfg.wf →
    (∀ a, a < keyAddr 0 → Memory.read m a = Memory.read s.mem a) → exec i s = .next t →
    ∃ u, exec i { s with mem := m } = .next u ∧ t = { u with mem := t.mem } ∧
      ∀ a, a < keyAddr 0 → Memory.read u.mem a = Memory.read t.mem a

/-- The number-theory commands neither read nor write N, SHK, AFA, AFB, AFAINV, KLEN, DLEN, DATA, KEY or AFV: whatever
these hold, the rest of the next state is the same, and these are as they were (R75). -/
def Obligations.NumberTheoryIgnoresCipherState : Prop :=
  ∀ (i : Instr) (s t : State) (n shk afa afb afainv klen dlen : Word) (m : Memory) (b : Bool),
    numberTheoryCommand i = true → exec i s = .next t →
    exec i { s with
        n := n, shk := shk, afa := afa, afb := afb, afainv := afainv, klen := klen, dlen := dlen, mem := m
        status := { s.status with afv := b } } =
      .next { t with
        n := n, shk := shk, afa := afa, afb := afb, afainv := afainv, klen := klen, dlen := dlen, mem := m
        status := { t.status with afv := b } }

/-- Cipher commands and NOP neither read nor write X0 to X7 (R17, R100). -/
def Obligations.CipherCommandsIgnoreOperandRegisters : Prop :=
  ∀ (i : Instr) (s t : State) (x : Vector Word 8), numberTheoryCommand i = false → exec i s = .next t →
    t.x = s.x ∧ exec i { s with x := x } = .next { t with x := x }

/-- A fault comes only of an unwritten element, and lasts until reset. With no fault recorded, a step answers a next state,
and one records a fault only at a host read of an unwritten element while BUSY = 0, or at the completion of a sequence
command that reads one; then nothing else changes but the agenda. With a fault recorded, a step resets the block, or the
run stops with that fault because no assertion of `rst` is to come. No step is refused (R42, R86, R118, R119; that a
faulted state takes the next assertion or stops is the model's choice, log 16). -/
def Obligations.StepStopsOnlyOnUnwrittenElements : Prop :=
  (∀ s : State, s.fault = none → ∃ t, step s = .next t) ∧
  (∀ (s t : State) (f : Fault), s.fault = none → step s = .next t → t.fault = some f →
    t = { s with fault := some f, agenda := s.agenda.tail } ∧
    ((s.status.busy = false ∧ s.rst = false ∧ ∃ off t rest,
      s.agenda = .bus (.read off 8) :: rest ∧ targetAt s.cfg off.toNat = some t ∧
        ((∃ i, t = .data i ∧ s.dataAt i = none) ∨ ∃ i, t = .key i ∧ s.keyAt i = none)) ∨
    (s.status.busy = true ∧ EngineNext s ∧ ∃ i, decode s.inflight = .ok i ∧ i ∈ sequenceCommands ∧
      (¬s.dataWritten ∨ ((i = .paenc ∨ i = .padec) ∧ ¬s.keyWritten))))) ∧
  (∀ (s : State) (f : Fault), s.fault = some f →
    (Event.pin true ∉ s.agenda → step s = .fault f) ∧
    (Event.pin true ∈ s.agenda → ∃ t, step s = .next t ∧ t.rst = true ∧ t.fault = none)) ∧
  ∀ (s : State) (r : Refusal), step s ≠ .refused r

/-- A command in flight ends, by completion or by reset, or a fault is recorded, within as many steps as the agenda has
events and one more (R105; that an empty agenda gives the ENGINE the turn is the model's choice, log 1). -/
def Obligations.CommandInFlightEnds : Prop :=
  ∀ s : State, s.fault = none → s.status.busy = true → s.rst = false →
    ∃ k t, k ≤ s.agenda.length + 1 ∧ Host.Core.run Sys2Proof.core k s = .next t ∧
      (t.status.busy = false ∨ ∃ f, t.fault = some f)

/-! ### Engine control -/

/-- R100: the word 0 is NOP, any other word with OP 0 is illegal, and NOP completes without error and writes nothing but
BUSY, DONE, ERR and ERRCODE: AFV and BOVR stay, and `irq` is IE. -/
def Obligations.NopCompletesAndWritesNothing : Prop :=
  (∀ v : Word, opField v = 0x00 → (decode v = .ok .nop ↔ v = 0) ∧ (v ≠ 0 → ∃ e, decode v = .error e)) ∧
  ∀ s : State, ∃ t, exec .nop s = .next t ∧
    t = { s with status := { s.status with busy := false, done := true, err := false, errCode := .noError } } ∧
    t.irq = s.ie

/-! ### Number theory -/

/-- R78: for b > 0, MOD writes to X[RD] the r with 0 ≤ r < b and b dividing a - r, and changes nothing else but STATUS; for
b ≤ 0 it fails with DOMAIN. The operands may be any registers, the destination among them. -/
def Obligations.ModWritesTheCanonicalResidue : Prop :=
  ∀ (rd rs1 rs2 : RegIdx) (s : State),
    encode (.mod rd rs1 rs2) &&& 0xFFFE00FF = 0x01 ∧
    (0 < s.xInt rs2 → ∃ t, exec (.mod rd rs1 rs2) s = .next t ∧ WroteOnly [rd] s t ∧
      0 ≤ t.xInt rd ∧ t.xInt rd < s.xInt rs2 ∧ s.xInt rs2 ∣ s.xInt rs1 - t.xInt rd) ∧
    (s.xInt rs2 ≤ 0 → Fails (.mod rd rs1 rs2) .domain s)

/-- R79: for a, b > 0, GCD writes to X[RD] the greatest integer dividing both, and changes nothing else but STATUS; else it
fails with DOMAIN. -/
def Obligations.GcdWritesTheGreatestCommonDivisor : Prop :=
  ∀ (rd rs1 rs2 : RegIdx) (s : State),
    encode (.gcd rd rs1 rs2) &&& 0xFFFE00FF = 0x02 ∧
    (0 < s.xInt rs1 → 0 < s.xInt rs2 → ∃ t, exec (.gcd rd rs1 rs2) s = .next t ∧ WroteOnly [rd] s t ∧
      1 ≤ t.xInt rd ∧ t.xInt rd ≤ min (s.xInt rs1) (s.xInt rs2) ∧
      t.xInt rd ∣ s.xInt rs1 ∧ t.xInt rd ∣ s.xInt rs2 ∧
      ∀ d, d ∣ s.xInt rs1 → d ∣ s.xInt rs2 → d ≤ t.xInt rd) ∧
    (s.xInt rs1 ≤ 0 ∨ s.xInt rs2 ≤ 0 → Fails (.gcd rd rs1 rs2) .domain s)

/-- For RD ≤ 5 and a, b > 0, EXTGCD writes g = gcd(a, b), x and y to X[RD], X[RD+1], X[RD+2], with a·x + b·y = g,
g·|x| ≤ b and g·|y| ≤ a, and changes nothing else but STATUS; RD > 5 fails with ILLEGAL before anything else, and a
non-positive operand with DOMAIN (R80; which pair x, y it is, the next two statements say). -/
def Obligations.ExtgcdWritesGcdAndBezoutPair : Prop :=
  ∀ (rd rs1 rs2 : RegIdx) (s : State),
    encode (.extgcd rd rs1 rs2) &&& 0xFFFE00FF = 0x03 ∧
    (rd.val ≤ 5 → 0 < s.xInt rs1 → 0 < s.xInt rs2 →
      ∃ t, exec (.extgcd rd rs1 rs2) s = .next t ∧ WroteOnly [rd, rd + 1, rd + 2] s t ∧
        t.xInt rd = Int.gcd (s.xInt rs1) (s.xInt rs2) ∧
        s.xInt rs1 * t.xInt (rd + 1) + s.xInt rs2 * t.xInt (rd + 2) = t.xInt rd ∧
        t.xInt rd * |t.xInt (rd + 1)| ≤ s.xInt rs2 ∧ t.xInt rd * |t.xInt (rd + 2)| ≤ s.xInt rs1) ∧
    (rd.val ≤ 5 → s.xInt rs1 ≤ 0 ∨ s.xInt rs2 ≤ 0 → Fails (.extgcd rd rs1 rs2) .domain s) ∧
    (5 < rd.val → Fails (.extgcd rd rs1 rs2) .illegal s)

/-- The iterative loop of EXTGCD writes the same triple as the recursive back-substitution (R80, 90_conflicts.md C5). -/
def Obligations.ExtgcdAgreesWithTheRecursion : Prop :=
  ∀ (rd rs1 rs2 : RegIdx) (s : State), rd.val ≤ 5 → 0 < s.xInt rs1 → 0 < s.xInt rs2 →
    ∃ t, exec (.extgcd rd rs1 rs2) s = .next t ∧
      (t.xInt rd, t.xInt (rd + 1), t.xInt (rd + 2)) =
        extRec ((s.xInt rs2).toNat + 1) (s.xInt rs1) (s.xInt rs2)

/-- The corner cases of R80: a = b gives (a, 0, 1), b dividing a gives (b, 0, 1), a dividing b with a < b gives (a, 1, 0), and
a < b gives the coefficients of (b, a) swapped. -/
def Obligations.ExtgcdCornerCases : Prop :=
  ∀ (rd rs1 rs2 : RegIdx) (s : State), rd.val ≤ 5 → 0 < s.xInt rs1 → 0 < s.xInt rs2 →
    ∃ t, exec (.extgcd rd rs1 rs2) s = .next t ∧
      (s.xInt rs2 ∣ s.xInt rs1 →
        t.xInt rd = s.xInt rs2 ∧ t.xInt (rd + 1) = 0 ∧ t.xInt (rd + 2) = 1) ∧
      (s.xInt rs1 < s.xInt rs2 → s.xInt rs1 ∣ s.xInt rs2 →
        t.xInt rd = s.xInt rs1 ∧ t.xInt (rd + 1) = 1 ∧ t.xInt (rd + 2) = 0) ∧
      (s.xInt rs1 < s.xInt rs2 →
        ∃ u, exec (.extgcd rd rs2 rs1) s = .next u ∧
          u.xInt rd = t.xInt rd ∧ u.xInt (rd + 1) = t.xInt (rd + 2) ∧ u.xInt (rd + 2) = t.xInt (rd + 1))

/-- R81: for k, n > 0 with gcd(k, n) = 1, MODINV writes to X[RD] the r in [0, n) with k·r ≡ 1 modulo n (0 when n = 1), and
changes nothing else but STATUS; with gcd(k, n) ≠ 1 it fails with NOT_INVERTIBLE; with k ≤ 0 or n ≤ 0 it fails with DOMAIN. -/
def Obligations.ModinvWritesTheInverse : Prop :=
  ∀ (rd rs1 rs2 : RegIdx) (s : State),
    encode (.modinv rd rs1 rs2) &&& 0xFFFE00FF = 0x04 ∧
    (0 < s.xInt rs1 → 0 < s.xInt rs2 → Int.gcd (s.xInt rs1) (s.xInt rs2) = 1 →
      ∃ t, exec (.modinv rd rs1 rs2) s = .next t ∧ WroteOnly [rd] s t ∧
        0 ≤ t.xInt rd ∧ t.xInt rd < s.xInt rs2 ∧
        (s.xInt rs1 * t.xInt rd) % s.xInt rs2 = 1 % s.xInt rs2 ∧
        t.xInt rd = (extTriple (s.xInt rs2) (s.xInt rs1)).2.2 % s.xInt rs2) ∧
    (0 < s.xInt rs1 → 0 < s.xInt rs2 → Int.gcd (s.xInt rs1) (s.xInt rs2) ≠ 1 →
      Fails (.modinv rd rs1 rs2) .notInvertible s) ∧
    (s.xInt rs1 ≤ 0 ∨ s.xInt rs2 ≤ 0 → Fails (.modinv rd rs1 rs2) .domain s)

/-- R82: for b, e, m > 0, the square-and-multiply loop of MODPOW writes b^e mod m to X[RD], and changes nothing else but
STATUS; with an operand ≤ 0 it fails with DOMAIN. -/
def Obligations.ModpowWritesThePower : Prop :=
  ∀ (rd rs1 rs2 rs3 : RegIdx) (s : State),
    encode (.modpow rd rs1 rs2 rs3) &&& 0xFFF000FF = 0x05 ∧
    (0 < s.xInt rs1 → 0 < s.xInt rs2 → 0 < s.xInt rs3 →
      ∃ t, exec (.modpow rd rs1 rs2 rs3) s = .next t ∧ WroteOnly [rd] s t ∧
        t.xInt rd = s.xInt rs1 ^ (s.xInt rs2).toNat % s.xInt rs3) ∧
    (s.xInt rs1 ≤ 0 ∨ s.xInt rs2 ≤ 0 ∨ s.xInt rs3 ≤ 0 → Fails (.modpow rd rs1 rs2 rs3) .domain s)

/-! ### Ciphers -/

/-- R84: the checks of every sequence command in their order, each before any element is read: N, DLEN, then KLEN = 0 and
KLEN > KMAX for PAENC and PADEC, or AFV for AFENC and AFDEC. A failing check leaves everything but STATUS. -/
def Obligations.SequenceCommandsCheckInOrder : Prop :=
  ∀ s : State,
    (∀ i ∈ sequenceCommands, FailsSharedChecks i s) ∧
    (∀ i, i = .paenc ∨ i = .padec → FailsKeyChecks i s) ∧
    (∀ i, i = .afenc ∨ i = .afdec → s.sequenceReady → s.status.afv = false → Fails i .notConfigured s)

/-- Once its checks pass, a sequence command faults with UnwrittenRead when an element of DATA[0 .. DLEN-1] is unwritten,
and for PAENC and PADEC one of KEY[0 .. min(KLEN, DLEN)-1]; when these are written it completes; and with DLEN = 0 it
reads none and completes with memory unchanged (R86, a derived rule of the spec; that PAENC and PADEC read a KEY element
whose DATA element the range guard passes over is the model's choice of R86 over the pseudocode of R97 and R98, log 11). -/
def Obligations.SequenceCommandsReadExactlyTheirElements : Prop :=
  ∀ s : State, s.sequenceReady →
    (∀ i, i = .shenc ∨ i = .shdec ∨ (s.status.afv = true ∧ (i = .afenc ∨ i = .afdec)) →
      (¬s.dataWritten → exec i s = .fault .unwrittenRead) ∧ (s.dataWritten → ∃ t, exec i s = .next t ∧ CompletedOk s t) ∧
      (uint s.dlen = 0 → ∃ t, exec i s = .next t ∧ CompletedOk s t ∧ t.mem = s.mem)) ∧
    (∀ i, i = .paenc ∨ i = .padec → s.keyReady →
      (¬s.dataWritten ∨ ¬s.keyWritten → exec i s = .fault .unwrittenRead) ∧
      (s.dataWritten → s.keyWritten → ∃ t, exec i s = .next t ∧ CompletedOk s t) ∧
      (uint s.dlen = 0 → ∃ t, exec i s = .next t ∧ CompletedOk s t ∧ t.mem = s.mem))

/-- R89: SHENC turns each x of DATA[0 .. DLEN-1] in [0, N) into (x + SHK) mod N and leaves the others, and changes nothing
else but STATUS; its errors are DOMAIN and LENGTH. -/
def Obligations.ShencShiftsEachElement : Prop :=
  encode .shenc = 0x10 ∧
  ∀ s : State, FailsSharedChecks .shenc s ∧
    (s.sequenceReady → s.dataWritten → ∃ t, exec .shenc s = .next t ∧
      Transformed (fun _ x y => GuardedBy s.n ((sint x + sint s.shk) % sint s.n) x y) s t)

/-- R90: SHDEC turns each y of DATA[0 .. DLEN-1] in [0, N) into (y - SHK) mod N and leaves the others, and changes nothing
else but STATUS; its errors are DOMAIN and LENGTH. -/
def Obligations.ShdecShiftsEachElementBack : Prop :=
  encode .shdec = 0x11 ∧
  ∀ s : State, FailsSharedChecks .shdec s ∧
    (s.sequenceReady → s.dataWritten → ∃ t, exec .shdec s = .next t ∧
      Transformed (fun _ x y => GuardedBy s.n ((sint x - sint s.shk) % sint s.n) x y) s t)

/-- R92: with N, AFA > 0 and gcd(AFA, N) = 1, AFCFG writes the inverse of AFA modulo N, the value MODINV(AFA, N), to AFAINV
and sets AFV, and changes nothing else but STATUS; with N ≤ 0 or AFA ≤ 0 it fails with DOMAIN and with gcd ≠ 1 with
NOT_INVERTIBLE, and every failure clears AFV and leaves AFAINV and everything else. -/
def Obligations.AfcfgCachesTheInverse : Prop :=
  encode .afcfg = 0x12 ∧
  ∀ s : State,
    (0 < sint s.n → 0 < sint s.afa → Int.gcd (sint s.afa) (sint s.n) = 1 →
      ∃ t, exec .afcfg s = .next t ∧ t = { s with afainv := t.afainv, status := t.status } ∧
        t.status = { s.status with busy := false, done := true, err := false, errCode := .noError, afv := true } ∧
        0 ≤ sint t.afainv ∧ sint t.afainv < sint s.n ∧ (sint s.afa * sint t.afainv) % sint s.n = 1 % sint s.n ∧
        sint t.afainv = (extTriple (sint s.n) (sint s.afa)).2.2 % sint s.n) ∧
    (sint s.n ≤ 0 ∨ sint s.afa ≤ 0 →
      exec .afcfg s = .next { s with
        status := { s.status with busy := false, done := true, err := true, errCode := .domain, afv := false } }) ∧
    (0 < sint s.n → 0 < sint s.afa → Int.gcd (sint s.afa) (sint s.n) ≠ 1 →
      exec .afcfg s = .next { s with
        status := { s.status with busy := false, done := true, err := true, errCode := .notInvertible, afv := false } })

/-- R93: with AFV = 1, AFENC turns every x of DATA[0 .. DLEN-1] into (AFA·x + AFB) mod N, in [0, N), with no range guard,
and changes nothing else but STATUS; its errors are DOMAIN, LENGTH and NOT_CONFIGURED. -/
def Obligations.AfencTransformsEveryElement : Prop :=
  encode .afenc = 0x13 ∧
  ∀ s : State, FailsSharedChecks .afenc s ∧
    (s.sequenceReady → s.status.afv = false → Fails .afenc .notConfigured s) ∧
    (s.sequenceReady → s.status.afv = true → s.dataWritten → ∃ t, exec .afenc s = .next t ∧
      Transformed (fun _ x y => sint y = (sint s.afa * sint x + sint s.afb) % sint s.n) s t)

/-- R94: with AFV = 1, AFDEC turns every y of DATA[0 .. DLEN-1] into AFAINV·(y - AFB) mod N, with no range guard, and changes
nothing else but STATUS; its errors are DOMAIN, LENGTH and NOT_CONFIGURED. -/
def Obligations.AfdecTransformsEveryElement : Prop :=
  encode .afdec = 0x14 ∧
  ∀ s : State, FailsSharedChecks .afdec s ∧
    (s.sequenceReady → s.status.afv = false → Fails .afdec .notConfigured s) ∧
    (s.sequenceReady → s.status.afv = true → s.dataWritten → ∃ t, exec .afdec s = .next t ∧
      Transformed (fun _ x y => sint y = (sint s.afainv * (sint x - sint s.afb)) % sint s.n) s t)

/-- R97 and R96: PAENC turns each x = DATA[i] in [0, N), i < DLEN, into (x + KEY[i mod KLEN]) mod N and leaves the others,
whose positions count all the same, and changes nothing else but STATUS; its errors are DOMAIN, LENGTH and INVALID_KEY. -/
def Obligations.PaencAddsTheKeyStream : Prop :=
  encode .paenc = 0x15 ∧
  ∀ s : State, FailsSharedChecks .paenc s ∧ FailsKeyChecks .paenc s ∧
    (s.sequenceReady → s.keyReady → s.dataWritten → s.keyWritten → ∃ t, exec .paenc s = .next t ∧
      Transformed (fun i x y => ∃ k, s.keyAt (i % uint s.klen) = some k ∧
        GuardedBy s.n ((sint x + sint k) % sint s.n) x y) s t)

/-- R98 and R96: PADEC turns each y = DATA[i] in [0, N), i < DLEN, into (y - KEY[i mod KLEN]) mod N and leaves the others,
whose positions count all the same, and changes nothing else but STATUS; its errors are those of PAENC. -/
def Obligations.PadecSubtractsTheKeyStream : Prop :=
  encode .padec = 0x16 ∧
  ∀ s : State, FailsSharedChecks .padec s ∧ FailsKeyChecks .padec s ∧
    (s.sequenceReady → s.keyReady → s.dataWritten → s.keyWritten → ∃ t, exec .padec s = .next t ∧
      Transformed (fun i x y => ∃ k, s.keyAt (i % uint s.klen) = some k ∧
        GuardedBy s.n ((sint x - sint k) % sint s.n) x y) s t)

/-- A key stream of one element makes PAENC the shift by that element: from every state, PAENC leaves the memory that SHENC
with SHK = KEY[0] leaves (R97). -/
def Obligations.PaencWithOneKeyIsShenc : Prop :=
  ∀ (s : State) (k : Word), s.sequenceReady → uint s.klen = 1 → s.keyReady → s.dataWritten → s.keyAt 0 = some k →
    ∃ t u, exec .paenc s = .next t ∧ exec .shenc { s with shk := k } = .next u ∧ t.mem = u.mem ∧ t.status = u.status

/-- R91: SHENC then SHDEC restores DATA[0 .. DLEN-1] exactly, and so does SHDEC then SHENC. -/
def Obligations.ShiftRoundTripRestoresData : Prop :=
  ∀ s : State, s.sequenceReady → s.dataWritten →
    (∃ t u, exec .shenc s = .next t ∧ exec .shdec t = .next u ∧
      ∀ i, i < uint s.dlen → u.dataAt i = s.dataAt i) ∧
    (∃ t u, exec .shdec s = .next t ∧ exec .shenc t = .next u ∧
      ∀ i, i < uint s.dlen → u.dataAt i = s.dataAt i)

/-- R95: after a successful AFCFG, AFENC then AFDEC maps each element x to x mod N, and so restores it exactly when
0 ≤ x < N. -/
def Obligations.AffineRoundTripReducesData : Prop :=
  ∀ s : State, s.sequenceReady → 0 < sint s.afa → Int.gcd (sint s.afa) (sint s.n) = 1 → s.dataWritten →
    ∃ r t u, exec .afcfg s = .next r ∧ exec .afenc r = .next t ∧ exec .afdec t = .next u ∧
      ∀ i, i < uint s.dlen → ∃ x y, s.dataAt i = some x ∧ u.dataAt i = some y ∧ sint y = sint x % sint s.n ∧
        (y = x ↔ 0 ≤ sint x ∧ sint x < sint s.n)

/-- R99: PAENC then PADEC restores DATA[0 .. DLEN-1] exactly. -/
def Obligations.PolyalphabeticRoundTripRestoresData : Prop :=
  ∀ s : State, s.cfg.wf → s.sequenceReady → s.keyReady → s.dataWritten → s.keyWritten →
    ∃ t u, exec .paenc s = .next t ∧ exec .padec t = .next u ∧
      ∀ i, i < uint s.dlen → u.dataAt i = s.dataAt i
end

