-- ==== Sys2Proof/Laws/NumberTheory.lean ====
section
/-! SUPPORT. What the integer computations of the commands compute: the canonical residue, the two Euclidean loops and
the square-and-multiply loop, and that every result fits a register (40_number_theory.md R77). -/

namespace Sys2Proof.Machine

theorem sint_lower (w : Word) : -2 ^ 63 ≤ sint w := by
  have := BitVec.le_toInt w
  simpa [sint] using this

theorem sint_upper (w : Word) : sint w < 2 ^ 63 := by
  have := BitVec.toInt_lt (x := w)
  simpa [sint] using this

/-- A value in range survives the write (R9). -/
theorem sint_enc {z : Int} (h1 : -2 ^ 63 ≤ z) (h2 : z < 2 ^ 63) : sint (enc z) = z := by
  rw [sint, enc, BitVec.toInt_ofInt]
  exact Int.bmod_eq_of_le_mul_two (by norm_num; omega) (by norm_num; omega)

theorem enc_sint (w : Word) : enc (sint w) = w := BitVec.ofInt_toInt

theorem modZ_eq (a b : Int) : modZ a b = a % b := rfl

theorem divZ_eq (a b : Int) : divZ a b = a / b := rfl

theorem modZ_nonneg {a b : Int} (h : 0 < b) : 0 ≤ modZ a b := Int.emod_nonneg a (by omega)

theorem modZ_lt {a b : Int} (h : 0 < b) : modZ a b < b := Int.emod_lt_of_pos a h

/-- A canonical residue by a register's value fits a register. -/
theorem sint_enc_modZ (a : Int) {w : Word} (h : 0 < sint w) : sint (enc (modZ a (sint w))) = modZ a (sint w) := by
  have h1 := modZ_nonneg (a := a) h
  have h2 := modZ_lt (a := a) h
  have h3 := sint_upper w
  exact sint_enc (by omega) (by omega)

/-- The remainder step of the extended loop is the canonical residue. -/
theorem sub_divZ_mul (a b : Int) : a - divZ a b * b = modZ a b := by
  have := Int.mul_ediv_add_emod a b
  rw [divZ_eq, modZ_eq, mul_comm]
  omega

theorem gcdLoop_eq {k : Nat} {a b : Int} (ha : 0 ≤ a) (hb : 0 ≤ b) (hk : b.toNat ≤ k) :
    gcdLoop k a b = Int.gcd a b := by
  induction k generalizing a b with
  | zero =>
    obtain rfl : b = 0 := by omega
    simp [gcdLoop, abs_of_nonneg ha]
  | succ k ih =>
    unfold gcdLoop
    split
    · rename_i h
      subst h
      simp [abs_of_nonneg ha]
    · have h1 := modZ_nonneg (a := a) (b := b) (by omega)
      have h2 := modZ_lt (a := a) (b := b) (by omega)
      rw [ih hb h1 (by omega), modZ_eq, Int.gcd_comm b, Int.gcd_emod, Int.gcd_comm]

/-- The loop of R79 computes the greatest common divisor. -/
theorem gcdZ_eq {a b : Int} (ha : 0 < a) (hb : 0 < b) : gcdZ a b = Int.gcd a b :=
  gcdLoop_eq (by omega) (by omega) (Nat.le_refl _)

/-- What the loop of R80 keeps, for a pair (a, b): the Bézout equations of both rows and the gcd. -/
structure ExtKeeps (a b r0 r1 s0 s1 t0 t1 : Int) : Prop where
  nonneg0 : 0 ≤ r0
  nonneg1 : 0 ≤ r1
  row0 : a * s0 + b * t0 = r0
  row1 : a * s1 + b * t1 = r1
  gcd : Int.gcd r0 r1 = Int.gcd a b

theorem ExtKeeps.step {a b r0 r1 s0 s1 t0 t1 : Int} (h : ExtKeeps a b r0 r1 s0 s1 t0 t1) (hr : r1 ≠ 0) :
    ExtKeeps a b r1 (r0 - divZ r0 r1 * r1) s1 (s0 - divZ r0 r1 * s1) t1 (t0 - divZ r0 r1 * t1) where
  nonneg0 := h.nonneg1
  nonneg1 := by
    rw [sub_divZ_mul]
    exact modZ_nonneg (by have := h.nonneg1; omega)
  row0 := h.row1
  row1 := by linear_combination h.row0 - divZ r0 r1 * h.row1
  gcd := by rw [sub_divZ_mul, modZ_eq, Int.gcd_comm r1, Int.gcd_emod, ← h.gcd]

theorem ExtKeeps.start {a b : Int} (ha : 0 ≤ a) (hb : 0 ≤ b) : ExtKeeps a b a b 1 0 0 1 where
  nonneg0 := ha
  nonneg1 := hb
  row0 := by ring
  row1 := by ring
  gcd := rfl

theorem extLoop_keeps {a b : Int} {k : Nat} {r0 r1 s0 s1 t0 t1 : Int}
    (h : ExtKeeps a b r0 r1 s0 s1 t0 t1) (hk : r1.toNat ≤ k) :
    (extLoop k r0 r1 s0 s1 t0 t1).1 = Int.gcd a b ∧
      a * (extLoop k r0 r1 s0 s1 t0 t1).2.1 + b * (extLoop k r0 r1 s0 s1 t0 t1).2.2 = Int.gcd a b := by
  have done : r1 = 0 → r0 = Int.gcd a b := by
    rintro rfl
    rw [← h.gcd]
    simp [abs_of_nonneg h.nonneg0]
  induction k generalizing r0 r1 s0 s1 t0 t1 with
  | zero =>
    have h1 := h.nonneg1
    have h0 := done (by omega)
    exact ⟨h0, by rw [← h0]; exact h.row0⟩
  | succ k ih =>
    unfold extLoop
    split
    · rename_i hr
      have h0 := done hr
      exact ⟨h0, by rw [← h0]; exact h.row0⟩
    · rename_i hr
      have h' := h.step hr
      refine ih h' ?_ ?_
      · have h1 := h.nonneg1
        have h2 := modZ_lt (a := r0) (b := r1) (by omega)
        have h3 := modZ_nonneg (a := r0) (b := r1) (by omega)
        rw [sub_divZ_mul]
        omega
      · intro hz
        rw [← h'.gcd, hz]
        simp [abs_of_nonneg h'.nonneg0]

/-- The triple of R80: its first component is the gcd. -/
theorem extTriple_gcd {a b : Int} (ha : 0 < a) (hb : 0 < b) : (extTriple a b).1 = Int.gcd a b :=
  (extLoop_keeps (ExtKeeps.start (by omega) (by omega)) (Nat.le_refl _)).1

/-- The triple of R80: a * x + b * y = gcd(a, b). -/
theorem extTriple_bezout {a b : Int} (ha : 0 < a) (hb : 0 < b) :
    a * (extTriple a b).2.1 + b * (extTriple a b).2.2 = Int.gcd a b :=
  (extLoop_keeps (ExtKeeps.start (by omega) (by omega)) (Nat.le_refl _)).2

/-- What bounds one coefficient column of the loop of R80: r0 * |u1| + r1 * |u0| stays c while the signs alternate. -/
structure ColumnKeeps (c r0 r1 u0 u1 : Int) : Prop where
  weight : r0 * |u1| + r1 * |u0| = c
  sign : u0 * u1 ≤ 0

theorem abs_sub_mul_of_alternate {q u0 u1 : Int} (hq : 0 ≤ q) (h : u0 * u1 ≤ 0) :
    |u0 - q * u1| = |u0| + q * |u1| := by
  rcases le_total 0 u0 with h2 | h2 <;> rcases le_total 0 u1 with h3 | h3
  · rcases mul_eq_zero.mp (le_antisymm h (mul_nonneg h2 h3)) with h4 | h4 <;> subst h4
    · simp [abs_mul, abs_of_nonneg hq]
    · simp
  · rw [abs_of_nonneg h2, abs_of_nonpos h3, abs_of_nonneg (by nlinarith)]
    ring
  · rw [abs_of_nonpos h2, abs_of_nonneg h3, abs_of_nonpos (by nlinarith)]
    ring
  · rcases mul_eq_zero.mp (le_antisymm h (mul_nonneg_of_nonpos_of_nonpos h2 h3)) with h4 | h4 <;> subst h4
    · simp [abs_mul, abs_of_nonneg hq]
    · simp

theorem one_le_divZ {r0 r1 : Int} (hr : 0 < r1) (hle : r1 ≤ r0) : 1 ≤ divZ r0 r1 := by
  rw [divZ_eq]
  exact Int.le_ediv_of_mul_le hr (by omega)

theorem ColumnKeeps.step {c r0 r1 u0 u1 : Int} (h : ColumnKeeps c r0 r1 u0 u1) (hr : 0 < r1) (hle : r1 ≤ r0) :
    ColumnKeeps c r1 (r0 - divZ r0 r1 * r1) u1 (u0 - divZ r0 r1 * u1) := by
  have hq := one_le_divZ hr hle
  refine ⟨?_, ?_⟩
  · rw [abs_sub_mul_of_alternate (by omega) h.sign]
    linear_combination h.weight
  · have h1 := h.sign
    have h2 := mul_self_nonneg u1
    nlinarith

theorem ColumnKeeps.rises {c r0 r1 u0 u1 : Int} (h : ColumnKeeps c r0 r1 u0 u1) (hr : 0 < r1) (hle : r1 ≤ r0) :
    |u1| ≤ |u0 - divZ r0 r1 * u1| := by
  have hq := one_le_divZ hr hle
  rw [abs_sub_mul_of_alternate (by omega) h.sign]
  nlinarith [abs_nonneg u0, abs_nonneg u1]

theorem extLoop_column {a b : Int} {k : Nat} {r0 r1 s0 s1 t0 t1 : Int}
    (h0 : 0 < r0) (h1 : 0 ≤ r1) (hle : r1 ≤ r0) (hk : r1.toNat ≤ k)
    (hs : ColumnKeeps b r0 r1 s0 s1) (ht : ColumnKeeps a r0 r1 t0 t1)
    (hs1 : r1 = 0 → |s0| ≤ |s1|) (ht1 : r1 = 0 → |t0| ≤ |t1|) :
    (extLoop k r0 r1 s0 s1 t0 t1).1 * |(extLoop k r0 r1 s0 s1 t0 t1).2.1| ≤ b ∧
      (extLoop k r0 r1 s0 s1 t0 t1).1 * |(extLoop k r0 r1 s0 s1 t0 t1).2.2| ≤ a := by
  have done : r1 = 0 → r0 * |s0| ≤ b ∧ r0 * |t0| ≤ a := by
    intro hz
    have e1 := hs.weight
    have e2 := ht.weight
    have f1 := hs1 hz
    have f2 := ht1 hz
    subst hz
    constructor <;> nlinarith
  induction k generalizing r0 r1 s0 s1 t0 t1 with
  | zero => exact done (by omega)
  | succ k ih =>
    unfold extLoop
    split
    · rename_i hr
      exact done hr
    · rename_i hr
      have hm := modZ_nonneg (a := r0) (b := r1) (by omega)
      have hl := modZ_lt (a := r0) (b := r1) (by omega)
      have hs' := hs.step (by omega) hle
      have ht' := ht.step (by omega) hle
      have us := hs.rises (by omega) hle
      have ut := ht.rises (by omega) hle
      have e := sub_divZ_mul r0 r1
      have d : r0 - divZ r0 r1 * r1 = 0 → r1 * |s1| ≤ b ∧ r1 * |t1| ≤ a := by
        intro hz
        have e1 := hs'.weight
        have e2 := ht'.weight
        rw [hz] at e1 e2
        constructor <;> nlinarith
      exact ih (by omega) (by omega) (by omega) (by omega) hs' ht' (fun _ => us) (fun _ => ut) d

/-- The triple of R80: its coefficients are bounded, |x| * g at most b and |y| * g at most a. -/
theorem extTriple_bounds {a b : Int} (ha : 0 < a) (hb : 0 < b) :
    (extTriple a b).1 * |(extTriple a b).2.1| ≤ b ∧ (extTriple a b).1 * |(extTriple a b).2.2| ≤ a := by
  unfold extTriple
  by_cases hle : b ≤ a
  · exact extLoop_column ha (by omega) hle (Nat.le_refl _) ⟨by simp, by simp⟩ ⟨by simp, by simp⟩ (by omega) (by omega)
  · obtain ⟨k, hk⟩ : ∃ k, b.toNat = k + 1 := ⟨b.toNat - 1, by omega⟩
    have hq : divZ a b = 0 := by
      rw [divZ_eq]
      exact Int.ediv_eq_zero_of_lt (by omega) (by omega)
    rw [hk, extLoop, if_neg (by omega), hq]
    simp only [zero_mul, sub_zero]
    exact extLoop_column hb (by omega) (by omega) (by omega) ⟨by simp, by simp⟩ ⟨by simp, by simp⟩ (by omega) (by omega)

/-- MODINV's value exists exactly when k and n are coprime (R81). -/
theorem invZ_isSome {k n : Int} (hk : 0 < k) (hn : 0 < n) : (invZ k n).isSome ↔ Int.gcd k n = 1 := by
  have h := extTriple_gcd hn hk
  have h' : ((Int.gcd n k : Int) = 1) ↔ Int.gcd k n = 1 := by
    rw [Int.gcd_comm]
    omega
  unfold invZ
  rw [h]
  split
  · rename_i h1
    simpa using h'.mp h1
  · rename_i h1
    simpa using fun h2 => h1 (h'.mpr h2)

/-- MODINV's value is the canonical residue that inverts k modulo n (R81). -/
theorem invZ_spec {k n r : Int} (hk : 0 < k) (hn : 0 < n) (h : invZ k n = some r) :
    0 ≤ r ∧ r < n ∧ (k * r) % n = 1 % n := by
  unfold invZ at h
  split at h
  · rename_i hg
    cases h
    refine ⟨modZ_nonneg hn, modZ_lt hn, ?_⟩
    have hb := extTriple_bezout hn hk
    have hg' := extTriple_gcd hn hk
    rw [hg] at hg'
    rw [← hg'] at hb
    rw [modZ_eq, Int.mul_emod, Int.emod_emod_of_dvd _ (dvd_refl n), ← Int.mul_emod, ← hb, add_comm, mul_comm n,
      Int.add_mul_emod_self_right]
  · cases h

theorem invZ_none {k n : Int} (hk : 0 < k) (hn : 0 < n) : invZ k n = none ↔ Int.gcd k n ≠ 1 := by
  have h := invZ_isSome hk hn
  cases hi : invZ k n with
  | none =>
    rw [hi] at h
    simpa using h
  | some r =>
    rw [hi] at h
    simpa using h

/-- The bound of `bitlen` (00_scope.md R12). -/
theorem lt_two_pow_bitlen (e : Nat) : e < 2 ^ bitlen e := by
  unfold bitlen
  split
  · rename_i h
    subst h
    decide
  · exact Nat.lt_log2_self

theorem powLoop_eq {b m : Int} {e : Nat} (j : Nat) {r : Int} (i : Nat)
    (hr : r % m = b ^ i % m) (hrm : j = 0 → 0 ≤ r ∧ r < m) (hm : 0 < m) :
    powLoop b m e j r = b ^ (i * 2 ^ j + e % 2 ^ j) % m := by
  induction j generalizing r i with
  | zero =>
    obtain ⟨h0, h1⟩ := hrm rfl
    simp only [powLoop, pow_zero, Nat.mul_one, Nat.mod_one, Nat.add_zero]
    rw [← hr, Int.emod_eq_of_lt h0 h1]
  | succ j ih =>
    have hbit : e % 2 ^ (j + 1) = (e.testBit j).toNat * 2 ^ j + e % 2 ^ j := by
      rw [Nat.mod_pow_succ, Nat.toNat_testBit]
      ring
    have hsq : modZ (r * r) m % m = b ^ (2 * i) % m := by
      rw [modZ_eq, Int.emod_emod_of_dvd _ (dvd_refl m), Int.mul_emod, hr, ← Int.mul_emod]
      ring_nf
    unfold powLoop
    rw [hbit, pow_succ]
    cases hb : e.testBit j with
    | false =>
      simp only [Bool.toNat_false]
      rw [if_neg Bool.false_ne_true, ih (2 * i) hsq (fun _ => ⟨modZ_nonneg hm, modZ_lt hm⟩)]
      ring_nf
    | true =>
      have hmul : modZ (modZ (r * r) m * b) m % m = b ^ (2 * i + 1) % m := by
        rw [modZ_eq, Int.emod_emod_of_dvd _ (dvd_refl m), Int.mul_emod, hsq, ← Int.mul_emod, pow_succ]
      simp only [Bool.toNat_true]
      rw [if_pos trivial, ih (2 * i + 1) hmul (fun _ => ⟨modZ_nonneg hm, modZ_lt hm⟩)]
      ring_nf

/-- The loop of R82 computes b to the e modulo m. -/
theorem powModZ_eq {b e m : Int} (he : 0 < e) (hm : 0 < m) : powModZ b e m = b ^ e.toNat % m := by
  have hj : bitlen e.toNat ≠ 0 := by
    unfold bitlen
    rw [if_neg (by omega)]
    omega
  unfold powModZ
  rw [powLoop_eq (bitlen e.toNat) 0 (by simp) (fun h => absurd h hj) hm, Nat.zero_mul, Nat.zero_add,
    Nat.mod_eq_of_lt (lt_two_pow_bitlen _)]

end Sys2Proof.Machine
end

