-- ==== Sys2Proof/Laws/Memory.lean ====
section
/-! SUPPORT. What reading and writing memory can do: one byte, one element, a run of elements, and the canonical
form that every write keeps. -/

namespace Sys2Proof.Machine

@[simp] theorem Memory.read_nil (a : Nat) : Memory.read [] a = none := rfl

theorem Memory.read_write (m : Memory) (a k : Nat) (b : Byte) :
    Memory.read (Memory.write m a b) k = if k = a then some b else Memory.read m k := by
  induction m with
  | nil => simp [Memory.write, Memory.read, eq_comm]
  | cons c m ih =>
    obtain ⟨j, c⟩ := c
    unfold Memory.write
    split
    · simp [Memory.read, eq_comm]
    · split
      · rename_i _ h
        subst h
        simp only [Memory.read, eq_comm]
        split <;> rfl
      · rename_i _ h
        simp only [Memory.read, ih]
        split
        · rename_i h'
          subst h'
          simp [Ne.symm h]
        · rfl

@[simp] theorem Memory.read_write_same (m : Memory) (a : Nat) (b : Byte) :
    Memory.read (Memory.write m a b) a = some b := by simp [Memory.read_write]

theorem Memory.read_write_other (m : Memory) {a k : Nat} (b : Byte) (h : k ≠ a) :
    Memory.read (Memory.write m a b) k = Memory.read m k := by simp [Memory.read_write, h]

/-- Bytes written at consecutive addresses are read back, and every other address is left alone. -/
theorem Memory.read_writeBytes (bs : List Byte) (m : Memory) (a k : Nat) :
    Memory.read (Memory.writeBytes m a bs) k =
      if a ≤ k ∧ k < a + bs.length then bs[k - a]? else Memory.read m k := by
  induction bs generalizing m a with
  | nil =>
    rw [if_neg (by simp only [List.length_nil]; omega)]
    rfl
  | cons b bs ih =>
    simp only [Memory.writeBytes, ih, List.length_cons]
    by_cases h1 : a + 1 ≤ k ∧ k < a + 1 + bs.length
    · rw [if_pos h1, if_pos (by omega), show k - a = (k - (a + 1)) + 1 by omega, List.getElem?_cons_succ]
    · rw [if_neg h1, Memory.read_write]
      by_cases h2 : k = a
      · subst h2
        rw [if_pos rfl, if_pos (by omega)]
        simp
      · rw [if_neg h2, if_neg (by omega)]

@[simp] theorem lanes_length (w : Word) : (lanes w).length = 8 := rfl

theorem Memory.read_writeWord (m : Memory) (a k : Nat) (w : Word) :
    Memory.read (Memory.writeWord m a w) k =
      if a ≤ k ∧ k < a + 8 then (lanes w)[k - a]? else Memory.read m k :=
  Memory.read_writeBytes (lanes w) m a k

/-- A run of bytes is read when each of them is listed, and then it is those bytes. -/
theorem Memory.readBytes_eq_some {m : Memory} {a n : Nat} {bs : List Byte} :
    Memory.readBytes m a n = some bs ↔
      bs.length = n ∧ ∀ j, j < n → Memory.read m (a + j) = bs[j]? := by
  induction n generalizing a bs with
  | zero =>
    rw [Memory.readBytes, Option.some.injEq, eq_comm, ← List.length_eq_zero_iff]
    simp
  | succ n ih =>
    have key : (∀ j, j < n + 1 → Memory.read m (a + j) = bs[j]?) ↔
        Memory.read m a = bs[0]? ∧ ∀ j, j < n → Memory.read m (a + 1 + j) = bs[j + 1]? := by
      constructor
      · intro h
        exact ⟨h 0 (by omega), fun j hj => by rw [show a + 1 + j = a + (j + 1) by omega]; exact h _ (by omega)⟩
      · rintro ⟨h0, h⟩ j hj
        cases j with
        | zero => exact h0
        | succ j => rw [show a + (j + 1) = a + 1 + j by omega]; exact h _ (by omega)
    rw [key]
    cases bs with
    | nil =>
      simp only [Memory.readBytes, List.length_nil]
      constructor
      · intro h
        split at h
        · cases h
        · split at h <;> cases h
      · omega
    | cons b bs =>
      simp only [Memory.readBytes, List.length_cons, List.getElem?_cons_zero, List.getElem?_cons_succ]
      cases hb : Memory.read m a with
      | none => simp
      | some b' =>
        cases hr : Memory.readBytes m (a + 1) n with
        | none =>
          constructor
          · intro h
            cases h
          · rintro ⟨hl, _, h⟩
            have := (ih (a := a + 1) (bs := bs)).mpr ⟨by omega, h⟩
            rw [hr] at this
            cases this
        | some bs' =>
          obtain ⟨hl, h⟩ := ih.mp hr
          constructor
          · intro h'
            cases h'
            exact ⟨by omega, rfl, h⟩
          · rintro ⟨hl', hb', h'⟩
            have := (ih (a := a + 1) (bs := bs)).mpr ⟨by omega, h'⟩
            rw [hr] at this
            cases this
            cases hb'
            rfl

/-- Two memories that agree on the bytes of a run read it alike. -/
theorem Memory.readBytes_congr {m m' : Memory} {a n : Nat}
    (h : ∀ k, a ≤ k → k < a + n → Memory.read m' k = Memory.read m k) :
    Memory.readBytes m' a n = Memory.readBytes m a n := by
  induction n generalizing a with
  | zero => rfl
  | succ n ih =>
    simp only [Memory.readBytes, h a (Nat.le_refl a) (by omega),
      ih (a := a + 1) (fun k h1 h2 => h k (by omega) (by omega))]

theorem Memory.readWord_congr {m m' : Memory} {a : Nat}
    (h : ∀ k, a ≤ k → k < a + 8 → Memory.read m' k = Memory.read m k) :
    Memory.readWord m' a = Memory.readWord m a := by
  simp only [Memory.readWord, Memory.readBytes_congr h]

theorem numberOfLanes_lanes (w : Word) : numberOfLanes (lanes w) = w.toNat := by
  have := w.isLt
  simp only [lanes, byteLane, numberOfLanes, BitVec.extractLsb'_toNat, Nat.shiftRight_eq_div_pow]
  omega

/-- The word whose byte lanes are those of w is w (R55). -/
@[simp] theorem ofLanes_lanes (w : Word) : ofLanes (lanes w) = w := by
  simp [ofLanes, numberOfLanes_lanes]

/-- An element just written is read back. -/
@[simp] theorem Memory.readWord_writeWord_same (m : Memory) (a : Nat) (w : Word) :
    Memory.readWord (Memory.writeWord m a w) a = some w := by
  have h : Memory.readBytes (Memory.writeWord m a w) a 8 = some (lanes w) := by
    rw [Memory.readBytes_eq_some]
    refine ⟨rfl, fun j hj => ?_⟩
    rw [Memory.read_writeWord, if_pos (by omega), Nat.add_sub_cancel_left]
  simp [Memory.readWord, h]

/-- Writing an element leaves an element that does not overlap it alone. -/
theorem Memory.readWord_writeWord_other (m : Memory) {a k : Nat} (w : Word) (h : k + 8 ≤ a ∨ a + 8 ≤ k) :
    Memory.readWord (Memory.writeWord m a w) k = Memory.readWord m k := by
  apply Memory.readWord_congr
  intro j h1 h2
  rw [Memory.read_writeWord, if_neg (by omega)]

/-- A run of elements is read when each of them is written, and then it is those elements. -/
theorem Memory.readElems_eq_some {m : Memory} {a n : Nat} {ws : List Word} :
    Memory.readElems m a n = some ws ↔
      ws.length = n ∧ ∀ i, i < n → Memory.readWord m (a + 8 * i) = ws[i]? := by
  induction n generalizing a ws with
  | zero =>
    rw [Memory.readElems, Option.some.injEq, eq_comm, ← List.length_eq_zero_iff]
    simp
  | succ n ih =>
    have key : (∀ i, i < n + 1 → Memory.readWord m (a + 8 * i) = ws[i]?) ↔
        Memory.readWord m a = ws[0]? ∧ ∀ i, i < n → Memory.readWord m (a + 8 + 8 * i) = ws[i + 1]? := by
      constructor
      · intro h
        exact ⟨h 0 (by omega), fun i hi => by rw [show a + 8 + 8 * i = a + 8 * (i + 1) by omega]; exact h _ (by omega)⟩
      · rintro ⟨h0, h⟩ i hi
        cases i with
        | zero => exact h0
        | succ i => rw [show a + 8 * (i + 1) = a + 8 + 8 * i by omega]; exact h _ (by omega)
    rw [key]
    cases ws with
    | nil =>
      simp only [Memory.readElems, List.length_nil]
      constructor
      · intro h
        split at h
        · cases h
        · split at h <;> cases h
      · omega
    | cons w ws =>
      simp only [Memory.readElems, List.length_cons, List.getElem?_cons_zero, List.getElem?_cons_succ]
      cases hw : Memory.readWord m a with
      | none => simp
      | some w' =>
        cases hr : Memory.readElems m (a + 8) n with
        | none =>
          constructor
          · intro h
            cases h
          · rintro ⟨hl, _, h⟩
            have := (ih (a := a + 8) (ws := ws)).mpr ⟨by omega, h⟩
            rw [hr] at this
            cases this
        | some ws' =>
          obtain ⟨hl, h⟩ := ih.mp hr
          constructor
          · intro h'
            cases h'
            exact ⟨by omega, rfl, h⟩
          · rintro ⟨hl', hw', h'⟩
            have := (ih (a := a + 8) (ws := ws)).mpr ⟨by omega, h'⟩
            rw [hr] at this
            cases this
            cases hw'
            rfl

/-- A run of elements can be read exactly when each of them is written. -/
theorem Memory.readElems_isSome {m : Memory} {a n : Nat} :
    (Memory.readElems m a n).isSome ↔ ∀ i, i < n → (Memory.readWord m (a + 8 * i)).isSome := by
  induction n generalizing a with
  | zero => simp [Memory.readElems]
  | succ n ih =>
    have key : (∀ i, i < n + 1 → (Memory.readWord m (a + 8 * i)).isSome) ↔
        (Memory.readWord m a).isSome ∧ ∀ i, i < n → (Memory.readWord m (a + 8 + 8 * i)).isSome := by
      constructor
      · intro h
        exact ⟨h 0 (by omega), fun i hi => by rw [show a + 8 + 8 * i = a + 8 * (i + 1) by omega]; exact h _ (by omega)⟩
      · rintro ⟨h0, h⟩ i hi
        cases i with
        | zero => exact h0
        | succ i => rw [show a + 8 * (i + 1) = a + 8 + 8 * i by omega]; exact h _ (by omega)
    rw [key, ← ih]
    simp only [Memory.readElems]
    cases Memory.readWord m a with
    | none => simp
    | some w => cases Memory.readElems m (a + 8) n <;> simp

theorem Memory.readElems_congr {m m' : Memory} {a n : Nat}
    (h : ∀ k, a ≤ k → k < a + 8 * n → Memory.read m' k = Memory.read m k) :
    Memory.readElems m' a n = Memory.readElems m a n := by
  induction n generalizing a with
  | zero => rfl
  | succ n ih =>
    simp only [Memory.readElems, Memory.readWord_congr (a := a) (fun k h1 h2 => h k h1 (by omega)),
      ih (a := a + 8) (fun k h1 h2 => h k (by omega) (by omega))]

/-- Writing a run of elements leaves every byte outside it alone. -/
theorem Memory.read_writeElems_other (ws : List Word) (m : Memory) (a : Nat) {k : Nat}
    (h : k < a ∨ a + 8 * ws.length ≤ k) :
    Memory.read (Memory.writeElems m a ws) k = Memory.read m k := by
  induction ws generalizing m a with
  | nil => rfl
  | cons w ws ih =>
    simp only [List.length_cons] at h
    rw [Memory.writeElems, ih _ _ (by omega), Memory.read_writeWord, if_neg (by omega)]

/-- Every byte of a run of elements just written is listed. -/
theorem Memory.read_writeElems_isSome (ws : List Word) (m : Memory) (a : Nat) {k : Nat}
    (h : a ≤ k ∧ k < a + 8 * ws.length) :
    (Memory.read (Memory.writeElems m a ws) k).isSome := by
  induction ws generalizing m a with
  | nil => simp only [List.length_nil] at h; omega
  | cons w ws ih =>
    simp only [List.length_cons] at h
    rw [Memory.writeElems]
    by_cases hk : a + 8 ≤ k
    · exact ih _ _ (by omega)
    · rw [Memory.read_writeElems_other _ _ _ (by omega), Memory.read_writeWord, if_pos (by omega),
        List.getElem?_eq_getElem (by rw [lanes_length]; omega)]
      rfl

/-- The i-th element of a run just written is read back. -/
theorem Memory.readWord_writeElems_same (ws : List Word) (m : Memory) (a : Nat) {i : Nat} (h : i < ws.length) :
    Memory.readWord (Memory.writeElems m a ws) (a + 8 * i) = ws[i]? := by
  induction ws generalizing m a i with
  | nil => simp at h
  | cons w ws ih =>
    rw [Memory.writeElems]
    cases i with
    | zero =>
      rw [Memory.readWord_congr (m := Memory.writeWord m a w)
        (fun k _ h2 => Memory.read_writeElems_other _ _ _ (by omega))]
      simp
    | succ i =>
      rw [show a + 8 * (i + 1) = a + 8 + 8 * i by omega, ih _ _ (by simpa using h), List.getElem?_cons_succ]

/-- Writing a run of elements leaves an element outside it alone. -/
theorem Memory.readWord_writeElems_other (ws : List Word) (m : Memory) (a : Nat) {k : Nat}
    (h : k + 8 ≤ a ∨ a + 8 * ws.length ≤ k) :
    Memory.readWord (Memory.writeElems m a ws) k = Memory.readWord m k :=
  Memory.readWord_congr (fun _ _ _ => Memory.read_writeElems_other _ _ _ (by omega))

/-- The first listed address of a memory is not below a bound. -/
def Memory.above (lo : Nat) (m : Memory) : Prop := ∀ c ∈ m, lo < c.1

theorem Memory.wf_cons {c : Host.Cell} {m : Memory} :
    Memory.wf (c :: m) = true ↔ Memory.above c.1 m ∧ Memory.wf m = true := by
  induction m generalizing c with
  | nil => simp [Memory.wf, Memory.above]
  | cons d m ih =>
    simp only [Memory.wf, Bool.and_eq_true, decide_eq_true_eq]
    constructor
    · rintro ⟨h1, h2⟩
      refine ⟨?_, h2⟩
      intro e he
      rcases List.mem_cons.mp he with rfl | he
      · exact h1
      · exact Nat.lt_trans h1 ((ih.mp h2).1 e he)
    · rintro ⟨h1, h2⟩
      exact ⟨h1 d List.mem_cons_self, h2⟩

theorem Memory.above_write {lo a : Nat} {m : Memory} (b : Byte) (hm : Memory.above lo m) (ha : lo < a) :
    Memory.above lo (Memory.write m a b) := by
  induction m with
  | nil => simp only [Memory.above, Memory.write, List.mem_singleton, forall_eq, ha]
  | cons c m ih =>
    obtain ⟨k, c⟩ := c
    have h0 := hm (k, c) List.mem_cons_self
    have h1 : Memory.above lo m := fun e he => hm e (List.mem_cons_of_mem _ he)
    unfold Memory.write
    split
    · intro e he
      rcases List.mem_cons.mp he with rfl | he
      · exact ha
      · exact hm e he
    · split
      · intro e he
        rcases List.mem_cons.mp he with rfl | he
        · exact ha
        · exact h1 e he
      · intro e he
        rcases List.mem_cons.mp he with rfl | he
        · exact h0
        · exact ih h1 e he

/-- Writing a byte keeps the canonical form. -/
theorem Memory.wf_write {m : Memory} (a : Nat) (b : Byte) (h : Memory.wf m = true) :
    Memory.wf (Memory.write m a b) = true := by
  induction m with
  | nil => rfl
  | cons c m ih =>
    obtain ⟨k, c⟩ := c
    obtain ⟨h1, h2⟩ := Memory.wf_cons.mp h
    unfold Memory.write
    split
    · rename_i hak
      refine Memory.wf_cons.mpr ⟨?_, h⟩
      intro e he
      rcases List.mem_cons.mp he with rfl | he
      · exact hak
      · exact Nat.lt_trans hak (h1 e he)
    · split
      · rename_i _ hak
        subst hak
        exact Memory.wf_cons.mpr ⟨h1, h2⟩
      · exact Memory.wf_cons.mpr ⟨Memory.above_write b h1 (by simp only; omega), ih h2⟩

theorem Memory.wf_writeBytes {m : Memory} (a : Nat) (bs : List Byte) (h : Memory.wf m = true) :
    Memory.wf (Memory.writeBytes m a bs) = true := by
  induction bs generalizing m a with
  | nil => exact h
  | cons b bs ih => exact ih _ (Memory.wf_write a b h)

/-- Writing an element keeps the canonical form. -/
theorem Memory.wf_writeWord {m : Memory} (a : Nat) (w : Word) (h : Memory.wf m = true) :
    Memory.wf (Memory.writeWord m a w) = true := Memory.wf_writeBytes a _ h

/-- Writing a run of elements keeps the canonical form. -/
theorem Memory.wf_writeElems {m : Memory} (a : Nat) (ws : List Word) (h : Memory.wf m = true) :
    Memory.wf (Memory.writeElems m a ws) = true := by
  induction ws generalizing m a with
  | nil => exact h
  | cons w ws ih => exact ih _ (Memory.wf_writeWord a w h)

end Sys2Proof.Machine
end

