-- ==== Sys2Proof/Laws/State.lean ====
section
/-! SUPPORT. One lemma per field per update of the state and of STATUS, each true by rfl, and reading a register after a
write. -/

namespace Sys2Proof.Machine

/-! ### STATUS: issued -/

@[simp] theorem Status.issued_busy (st : Status) :
    (st.issued).busy = true := rfl

@[simp] theorem Status.issued_done (st : Status) :
    (st.issued).done = false := rfl

@[simp] theorem Status.issued_err (st : Status) :
    (st.issued).err = false := rfl

@[simp] theorem Status.issued_errCode (st : Status) :
    (st.issued).errCode = .noError := rfl

@[simp] theorem Status.issued_afv (st : Status) :
    (st.issued).afv = st.afv := rfl

@[simp] theorem Status.issued_bovr (st : Status) :
    (st.issued).bovr = st.bovr := rfl

/-! ### STATUS: succeeded -/

@[simp] theorem Status.succeeded_busy (st : Status) :
    (st.succeeded).busy = false := rfl

@[simp] theorem Status.succeeded_done (st : Status) :
    (st.succeeded).done = true := rfl

@[simp] theorem Status.succeeded_err (st : Status) :
    (st.succeeded).err = false := rfl

@[simp] theorem Status.succeeded_errCode (st : Status) :
    (st.succeeded).errCode = .noError := rfl

@[simp] theorem Status.succeeded_afv (st : Status) :
    (st.succeeded).afv = st.afv := rfl

@[simp] theorem Status.succeeded_bovr (st : Status) :
    (st.succeeded).bovr = st.bovr := rfl

/-! ### STATUS: failed -/

@[simp] theorem Status.failed_busy (st : Status) (e : ErrCode) :
    (st.failed e).busy = false := rfl

@[simp] theorem Status.failed_done (st : Status) (e : ErrCode) :
    (st.failed e).done = true := rfl

@[simp] theorem Status.failed_err (st : Status) (e : ErrCode) :
    (st.failed e).err = true := rfl

@[simp] theorem Status.failed_errCode (st : Status) (e : ErrCode) :
    (st.failed e).errCode = e := rfl

@[simp] theorem Status.failed_afv (st : Status) (e : ErrCode) :
    (st.failed e).afv = st.afv := rfl

@[simp] theorem Status.failed_bovr (st : Status) (e : ErrCode) :
    (st.failed e).bovr = st.bovr := rfl

/-! ### STATUS: cleared -/

@[simp] theorem Status.cleared_busy (st : Status) (v : Word) :
    (st.cleared v).busy = st.busy := rfl

@[simp] theorem Status.cleared_done (st : Status) (v : Word) :
    (st.cleared v).done = (st.done && !v.getLsbD 1) := rfl

@[simp] theorem Status.cleared_err (st : Status) (v : Word) :
    (st.cleared v).err = st.err := rfl

@[simp] theorem Status.cleared_errCode (st : Status) (v : Word) :
    (st.cleared v).errCode = st.errCode := rfl

@[simp] theorem Status.cleared_afv (st : Status) (v : Word) :
    (st.cleared v).afv = st.afv := rfl

@[simp] theorem Status.cleared_bovr (st : Status) (v : Word) :
    (st.cleared v).bovr = (st.bovr && !v.getLsbD 9) := rfl

/-! ### STATUS: overrun -/

@[simp] theorem Status.overrun_busy (st : Status) :
    (st.overrun).busy = st.busy := rfl

@[simp] theorem Status.overrun_done (st : Status) :
    (st.overrun).done = st.done := rfl

@[simp] theorem Status.overrun_err (st : Status) :
    (st.overrun).err = st.err := rfl

@[simp] theorem Status.overrun_errCode (st : Status) :
    (st.overrun).errCode = st.errCode := rfl

@[simp] theorem Status.overrun_afv (st : Status) :
    (st.overrun).afv = st.afv := rfl

@[simp] theorem Status.overrun_bovr (st : Status) :
    (st.overrun).bovr = true := rfl

/-! ### STATUS: withAfv -/

@[simp] theorem Status.withAfv_busy (st : Status) (b : Bool) :
    (st.withAfv b).busy = st.busy := rfl

@[simp] theorem Status.withAfv_done (st : Status) (b : Bool) :
    (st.withAfv b).done = st.done := rfl

@[simp] theorem Status.withAfv_err (st : Status) (b : Bool) :
    (st.withAfv b).err = st.err := rfl

@[simp] theorem Status.withAfv_errCode (st : Status) (b : Bool) :
    (st.withAfv b).errCode = st.errCode := rfl

@[simp] theorem Status.withAfv_afv (st : Status) (b : Bool) :
    (st.withAfv b).afv = b := rfl

@[simp] theorem Status.withAfv_bovr (st : Status) (b : Bool) :
    (st.withAfv b).bovr = st.bovr := rfl

/-! ### State: writeX -/

@[simp] theorem State.writeX_x (s : State) (i : RegIdx) (w : Word) :
    (s.writeX i w).x = s.x.set i w := rfl

@[simp] theorem State.writeX_status (s : State) (i : RegIdx) (w : Word) :
    (s.writeX i w).status = s.status := rfl

@[simp] theorem State.writeX_ie (s : State) (i : RegIdx) (w : Word) :
    (s.writeX i w).ie = s.ie := rfl

@[simp] theorem State.writeX_n (s : State) (i : RegIdx) (w : Word) :
    (s.writeX i w).n = s.n := rfl

@[simp] theorem State.writeX_shk (s : State) (i : RegIdx) (w : Word) :
    (s.writeX i w).shk = s.shk := rfl

@[simp] theorem State.writeX_afa (s : State) (i : RegIdx) (w : Word) :
    (s.writeX i w).afa = s.afa := rfl

@[simp] theorem State.writeX_afb (s : State) (i : RegIdx) (w : Word) :
    (s.writeX i w).afb = s.afb := rfl

@[simp] theorem State.writeX_afainv (s : State) (i : RegIdx) (w : Word) :
    (s.writeX i w).afainv = s.afainv := rfl

@[simp] theorem State.writeX_klen (s : State) (i : RegIdx) (w : Word) :
    (s.writeX i w).klen = s.klen := rfl

@[simp] theorem State.writeX_dlen (s : State) (i : RegIdx) (w : Word) :
    (s.writeX i w).dlen = s.dlen := rfl

@[simp] theorem State.writeX_mem (s : State) (i : RegIdx) (w : Word) :
    (s.writeX i w).mem = s.mem := rfl

@[simp] theorem State.writeX_inflight (s : State) (i : RegIdx) (w : Word) :
    (s.writeX i w).inflight = s.inflight := rfl

@[simp] theorem State.writeX_rst (s : State) (i : RegIdx) (w : Word) :
    (s.writeX i w).rst = s.rst := rfl

@[simp] theorem State.writeX_fault (s : State) (i : RegIdx) (w : Word) :
    (s.writeX i w).fault = s.fault := rfl

@[simp] theorem State.writeX_cfg (s : State) (i : RegIdx) (w : Word) :
    (s.writeX i w).cfg = s.cfg := rfl

@[simp] theorem State.writeX_agenda (s : State) (i : RegIdx) (w : Word) :
    (s.writeX i w).agenda = s.agenda := rfl

@[simp] theorem State.writeX_response (s : State) (i : RegIdx) (w : Word) :
    (s.writeX i w).response = s.response := rfl

@[simp] theorem State.writeX_draws (s : State) (i : RegIdx) (w : Word) :
    (s.writeX i w).draws = s.draws := rfl

/-! ### State: setAfv -/

@[simp] theorem State.setAfv_x (s : State) (b : Bool) :
    (s.setAfv b).x = s.x := rfl

@[simp] theorem State.setAfv_status (s : State) (b : Bool) :
    (s.setAfv b).status = s.status.withAfv b := rfl

@[simp] theorem State.setAfv_ie (s : State) (b : Bool) :
    (s.setAfv b).ie = s.ie := rfl

@[simp] theorem State.setAfv_n (s : State) (b : Bool) :
    (s.setAfv b).n = s.n := rfl

@[simp] theorem State.setAfv_shk (s : State) (b : Bool) :
    (s.setAfv b).shk = s.shk := rfl

@[simp] theorem State.setAfv_afa (s : State) (b : Bool) :
    (s.setAfv b).afa = s.afa := rfl

@[simp] theorem State.setAfv_afb (s : State) (b : Bool) :
    (s.setAfv b).afb = s.afb := rfl

@[simp] theorem State.setAfv_afainv (s : State) (b : Bool) :
    (s.setAfv b).afainv = s.afainv := rfl

@[simp] theorem State.setAfv_klen (s : State) (b : Bool) :
    (s.setAfv b).klen = s.klen := rfl

@[simp] theorem State.setAfv_dlen (s : State) (b : Bool) :
    (s.setAfv b).dlen = s.dlen := rfl

@[simp] theorem State.setAfv_mem (s : State) (b : Bool) :
    (s.setAfv b).mem = s.mem := rfl

@[simp] theorem State.setAfv_inflight (s : State) (b : Bool) :
    (s.setAfv b).inflight = s.inflight := rfl

@[simp] theorem State.setAfv_rst (s : State) (b : Bool) :
    (s.setAfv b).rst = s.rst := rfl

@[simp] theorem State.setAfv_fault (s : State) (b : Bool) :
    (s.setAfv b).fault = s.fault := rfl

@[simp] theorem State.setAfv_cfg (s : State) (b : Bool) :
    (s.setAfv b).cfg = s.cfg := rfl

@[simp] theorem State.setAfv_agenda (s : State) (b : Bool) :
    (s.setAfv b).agenda = s.agenda := rfl

@[simp] theorem State.setAfv_response (s : State) (b : Bool) :
    (s.setAfv b).response = s.response := rfl

@[simp] theorem State.setAfv_draws (s : State) (b : Bool) :
    (s.setAfv b).draws = s.draws := rfl

/-! ### State: issue -/

@[simp] theorem State.issue_x (s : State) (v : Word) :
    (s.issue v).x = s.x := rfl

@[simp] theorem State.issue_status (s : State) (v : Word) :
    (s.issue v).status = s.status.issued := rfl

@[simp] theorem State.issue_ie (s : State) (v : Word) :
    (s.issue v).ie = s.ie := rfl

@[simp] theorem State.issue_n (s : State) (v : Word) :
    (s.issue v).n = s.n := rfl

@[simp] theorem State.issue_shk (s : State) (v : Word) :
    (s.issue v).shk = s.shk := rfl

@[simp] theorem State.issue_afa (s : State) (v : Word) :
    (s.issue v).afa = s.afa := rfl

@[simp] theorem State.issue_afb (s : State) (v : Word) :
    (s.issue v).afb = s.afb := rfl

@[simp] theorem State.issue_afainv (s : State) (v : Word) :
    (s.issue v).afainv = s.afainv := rfl

@[simp] theorem State.issue_klen (s : State) (v : Word) :
    (s.issue v).klen = s.klen := rfl

@[simp] theorem State.issue_dlen (s : State) (v : Word) :
    (s.issue v).dlen = s.dlen := rfl

@[simp] theorem State.issue_mem (s : State) (v : Word) :
    (s.issue v).mem = s.mem := rfl

@[simp] theorem State.issue_inflight (s : State) (v : Word) :
    (s.issue v).inflight = v := rfl

@[simp] theorem State.issue_rst (s : State) (v : Word) :
    (s.issue v).rst = s.rst := rfl

@[simp] theorem State.issue_fault (s : State) (v : Word) :
    (s.issue v).fault = s.fault := rfl

@[simp] theorem State.issue_cfg (s : State) (v : Word) :
    (s.issue v).cfg = s.cfg := rfl

@[simp] theorem State.issue_agenda (s : State) (v : Word) :
    (s.issue v).agenda = s.agenda := rfl

@[simp] theorem State.issue_response (s : State) (v : Word) :
    (s.issue v).response = s.response := rfl

@[simp] theorem State.issue_draws (s : State) (v : Word) :
    (s.issue v).draws = s.draws := rfl

/-! ### State: acknowledge -/

@[simp] theorem State.acknowledge_x (s : State) (v : Word) :
    (s.acknowledge v).x = s.x := rfl

@[simp] theorem State.acknowledge_status (s : State) (v : Word) :
    (s.acknowledge v).status = s.status.cleared v := rfl

@[simp] theorem State.acknowledge_ie (s : State) (v : Word) :
    (s.acknowledge v).ie = s.ie := rfl

@[simp] theorem State.acknowledge_n (s : State) (v : Word) :
    (s.acknowledge v).n = s.n := rfl

@[simp] theorem State.acknowledge_shk (s : State) (v : Word) :
    (s.acknowledge v).shk = s.shk := rfl

@[simp] theorem State.acknowledge_afa (s : State) (v : Word) :
    (s.acknowledge v).afa = s.afa := rfl

@[simp] theorem State.acknowledge_afb (s : State) (v : Word) :
    (s.acknowledge v).afb = s.afb := rfl

@[simp] theorem State.acknowledge_afainv (s : State) (v : Word) :
    (s.acknowledge v).afainv = s.afainv := rfl

@[simp] theorem State.acknowledge_klen (s : State) (v : Word) :
    (s.acknowledge v).klen = s.klen := rfl

@[simp] theorem State.acknowledge_dlen (s : State) (v : Word) :
    (s.acknowledge v).dlen = s.dlen := rfl

@[simp] theorem State.acknowledge_mem (s : State) (v : Word) :
    (s.acknowledge v).mem = s.mem := rfl

@[simp] theorem State.acknowledge_inflight (s : State) (v : Word) :
    (s.acknowledge v).inflight = s.inflight := rfl

@[simp] theorem State.acknowledge_rst (s : State) (v : Word) :
    (s.acknowledge v).rst = s.rst := rfl

@[simp] theorem State.acknowledge_fault (s : State) (v : Word) :
    (s.acknowledge v).fault = s.fault := rfl

@[simp] theorem State.acknowledge_cfg (s : State) (v : Word) :
    (s.acknowledge v).cfg = s.cfg := rfl

@[simp] theorem State.acknowledge_agenda (s : State) (v : Word) :
    (s.acknowledge v).agenda = s.agenda := rfl

@[simp] theorem State.acknowledge_response (s : State) (v : Word) :
    (s.acknowledge v).response = s.response := rfl

@[simp] theorem State.acknowledge_draws (s : State) (v : Word) :
    (s.acknowledge v).draws = s.draws := rfl

/-! ### State: writeCtrl -/

@[simp] theorem State.writeCtrl_x (s : State) (v : Word) :
    (s.writeCtrl v).x = s.x := rfl

@[simp] theorem State.writeCtrl_status (s : State) (v : Word) :
    (s.writeCtrl v).status = s.status := rfl

@[simp] theorem State.writeCtrl_ie (s : State) (v : Word) :
    (s.writeCtrl v).ie = v.getLsbD 0 := rfl

@[simp] theorem State.writeCtrl_n (s : State) (v : Word) :
    (s.writeCtrl v).n = s.n := rfl

@[simp] theorem State.writeCtrl_shk (s : State) (v : Word) :
    (s.writeCtrl v).shk = s.shk := rfl

@[simp] theorem State.writeCtrl_afa (s : State) (v : Word) :
    (s.writeCtrl v).afa = s.afa := rfl

@[simp] theorem State.writeCtrl_afb (s : State) (v : Word) :
    (s.writeCtrl v).afb = s.afb := rfl

@[simp] theorem State.writeCtrl_afainv (s : State) (v : Word) :
    (s.writeCtrl v).afainv = s.afainv := rfl

@[simp] theorem State.writeCtrl_klen (s : State) (v : Word) :
    (s.writeCtrl v).klen = s.klen := rfl

@[simp] theorem State.writeCtrl_dlen (s : State) (v : Word) :
    (s.writeCtrl v).dlen = s.dlen := rfl

@[simp] theorem State.writeCtrl_mem (s : State) (v : Word) :
    (s.writeCtrl v).mem = s.mem := rfl

@[simp] theorem State.writeCtrl_inflight (s : State) (v : Word) :
    (s.writeCtrl v).inflight = s.inflight := rfl

@[simp] theorem State.writeCtrl_rst (s : State) (v : Word) :
    (s.writeCtrl v).rst = s.rst := rfl

@[simp] theorem State.writeCtrl_fault (s : State) (v : Word) :
    (s.writeCtrl v).fault = s.fault := rfl

@[simp] theorem State.writeCtrl_cfg (s : State) (v : Word) :
    (s.writeCtrl v).cfg = s.cfg := rfl

@[simp] theorem State.writeCtrl_agenda (s : State) (v : Word) :
    (s.writeCtrl v).agenda = s.agenda := rfl

@[simp] theorem State.writeCtrl_response (s : State) (v : Word) :
    (s.writeCtrl v).response = s.response := rfl

@[simp] theorem State.writeCtrl_draws (s : State) (v : Word) :
    (s.writeCtrl v).draws = s.draws := rfl

/-! ### State: respond -/

@[simp] theorem State.respond_x (s : State) (r : Response) :
    (s.respond r).x = s.x := rfl

@[simp] theorem State.respond_status (s : State) (r : Response) :
    (s.respond r).status = s.status := rfl

@[simp] theorem State.respond_ie (s : State) (r : Response) :
    (s.respond r).ie = s.ie := rfl

@[simp] theorem State.respond_n (s : State) (r : Response) :
    (s.respond r).n = s.n := rfl

@[simp] theorem State.respond_shk (s : State) (r : Response) :
    (s.respond r).shk = s.shk := rfl

@[simp] theorem State.respond_afa (s : State) (r : Response) :
    (s.respond r).afa = s.afa := rfl

@[simp] theorem State.respond_afb (s : State) (r : Response) :
    (s.respond r).afb = s.afb := rfl

@[simp] theorem State.respond_afainv (s : State) (r : Response) :
    (s.respond r).afainv = s.afainv := rfl

@[simp] theorem State.respond_klen (s : State) (r : Response) :
    (s.respond r).klen = s.klen := rfl

@[simp] theorem State.respond_dlen (s : State) (r : Response) :
    (s.respond r).dlen = s.dlen := rfl

@[simp] theorem State.respond_mem (s : State) (r : Response) :
    (s.respond r).mem = s.mem := rfl

@[simp] theorem State.respond_inflight (s : State) (r : Response) :
    (s.respond r).inflight = s.inflight := rfl

@[simp] theorem State.respond_rst (s : State) (r : Response) :
    (s.respond r).rst = s.rst := rfl

@[simp] theorem State.respond_fault (s : State) (r : Response) :
    (s.respond r).fault = s.fault := rfl

@[simp] theorem State.respond_cfg (s : State) (r : Response) :
    (s.respond r).cfg = s.cfg := rfl

@[simp] theorem State.respond_agenda (s : State) (r : Response) :
    (s.respond r).agenda = s.agenda := rfl

@[simp] theorem State.respond_response (s : State) (r : Response) :
    (s.respond r).response = some r := rfl

@[simp] theorem State.respond_draws (s : State) (r : Response) :
    (s.respond r).draws = s.draws := rfl

/-! ### State: respondFree -/

@[simp] theorem State.respondFree_x (s : State) :
    (s.respondFree).x = s.x := rfl

@[simp] theorem State.respondFree_status (s : State) :
    (s.respondFree).status = s.status := rfl

@[simp] theorem State.respondFree_ie (s : State) :
    (s.respondFree).ie = s.ie := rfl

@[simp] theorem State.respondFree_n (s : State) :
    (s.respondFree).n = s.n := rfl

@[simp] theorem State.respondFree_shk (s : State) :
    (s.respondFree).shk = s.shk := rfl

@[simp] theorem State.respondFree_afa (s : State) :
    (s.respondFree).afa = s.afa := rfl

@[simp] theorem State.respondFree_afb (s : State) :
    (s.respondFree).afb = s.afb := rfl

@[simp] theorem State.respondFree_afainv (s : State) :
    (s.respondFree).afainv = s.afainv := rfl

@[simp] theorem State.respondFree_klen (s : State) :
    (s.respondFree).klen = s.klen := rfl

@[simp] theorem State.respondFree_dlen (s : State) :
    (s.respondFree).dlen = s.dlen := rfl

@[simp] theorem State.respondFree_mem (s : State) :
    (s.respondFree).mem = s.mem := rfl

@[simp] theorem State.respondFree_inflight (s : State) :
    (s.respondFree).inflight = s.inflight := rfl

@[simp] theorem State.respondFree_rst (s : State) :
    (s.respondFree).rst = s.rst := rfl

@[simp] theorem State.respondFree_fault (s : State) :
    (s.respondFree).fault = s.fault := rfl

@[simp] theorem State.respondFree_cfg (s : State) :
    (s.respondFree).cfg = s.cfg := rfl

@[simp] theorem State.respondFree_agenda (s : State) :
    (s.respondFree).agenda = s.agenda := rfl

@[simp] theorem State.respondFree_response (s : State) :
    (s.respondFree).response = some (.data (lanes (Config.freeRead s.draws))) := rfl

@[simp] theorem State.respondFree_draws (s : State) :
    (s.respondFree).draws = s.draws + 1 := rfl

/-! ### State: dropWrite -/

@[simp] theorem State.dropWrite_x (s : State) :
    (s.dropWrite).x = s.x := rfl

@[simp] theorem State.dropWrite_status (s : State) :
    (s.dropWrite).status = s.status.overrun := rfl

@[simp] theorem State.dropWrite_ie (s : State) :
    (s.dropWrite).ie = s.ie := rfl

@[simp] theorem State.dropWrite_n (s : State) :
    (s.dropWrite).n = s.n := rfl

@[simp] theorem State.dropWrite_shk (s : State) :
    (s.dropWrite).shk = s.shk := rfl

@[simp] theorem State.dropWrite_afa (s : State) :
    (s.dropWrite).afa = s.afa := rfl

@[simp] theorem State.dropWrite_afb (s : State) :
    (s.dropWrite).afb = s.afb := rfl

@[simp] theorem State.dropWrite_afainv (s : State) :
    (s.dropWrite).afainv = s.afainv := rfl

@[simp] theorem State.dropWrite_klen (s : State) :
    (s.dropWrite).klen = s.klen := rfl

@[simp] theorem State.dropWrite_dlen (s : State) :
    (s.dropWrite).dlen = s.dlen := rfl

@[simp] theorem State.dropWrite_mem (s : State) :
    (s.dropWrite).mem = s.mem := rfl

@[simp] theorem State.dropWrite_inflight (s : State) :
    (s.dropWrite).inflight = s.inflight := rfl

@[simp] theorem State.dropWrite_rst (s : State) :
    (s.dropWrite).rst = s.rst := rfl

@[simp] theorem State.dropWrite_fault (s : State) :
    (s.dropWrite).fault = s.fault := rfl

@[simp] theorem State.dropWrite_cfg (s : State) :
    (s.dropWrite).cfg = s.cfg := rfl

@[simp] theorem State.dropWrite_agenda (s : State) :
    (s.dropWrite).agenda = s.agenda := rfl

@[simp] theorem State.dropWrite_response (s : State) :
    (s.dropWrite).response = s.response := rfl

@[simp] theorem State.dropWrite_draws (s : State) :
    (s.dropWrite).draws = s.draws := rfl

/-! ### State: asserted -/

@[simp] theorem State.asserted_x (s : State) :
    (s.asserted).x = Vector.replicate 8 0 := rfl

@[simp] theorem State.asserted_status (s : State) :
    (s.asserted).status = Status.reset := rfl

@[simp] theorem State.asserted_ie (s : State) :
    (s.asserted).ie = false := rfl

@[simp] theorem State.asserted_n (s : State) :
    (s.asserted).n = 0 := rfl

@[simp] theorem State.asserted_shk (s : State) :
    (s.asserted).shk = 0 := rfl

@[simp] theorem State.asserted_afa (s : State) :
    (s.asserted).afa = 0 := rfl

@[simp] theorem State.asserted_afb (s : State) :
    (s.asserted).afb = 0 := rfl

@[simp] theorem State.asserted_afainv (s : State) :
    (s.asserted).afainv = 0 := rfl

@[simp] theorem State.asserted_klen (s : State) :
    (s.asserted).klen = 0 := rfl

@[simp] theorem State.asserted_dlen (s : State) :
    (s.asserted).dlen = 0 := rfl

@[simp] theorem State.asserted_mem (s : State) :
    (s.asserted).mem = [] := rfl

@[simp] theorem State.asserted_inflight (s : State) :
    (s.asserted).inflight = 0 := rfl

@[simp] theorem State.asserted_rst (s : State) :
    (s.asserted).rst = true := rfl

@[simp] theorem State.asserted_fault (s : State) :
    (s.asserted).fault = none := rfl

@[simp] theorem State.asserted_cfg (s : State) :
    (s.asserted).cfg = s.cfg := rfl

@[simp] theorem State.asserted_agenda (s : State) :
    (s.asserted).agenda = s.agenda := rfl

@[simp] theorem State.asserted_response (s : State) :
    (s.asserted).response = none := rfl

@[simp] theorem State.asserted_draws (s : State) :
    (s.asserted).draws = s.draws := rfl

/-! ### Reading an operand register -/

theorem State.readX_writeX (s : State) (i j : RegIdx) (w : Word) :
    (s.writeX i w).readX j = if i = j then w else s.readX j := by
  simp only [State.readX, State.writeX_x, Fin.getElem_fin, Vector.getElem_set, Fin.ext_iff]

@[simp] theorem State.readX_writeX_same (s : State) (i : RegIdx) (w : Word) : (s.writeX i w).readX i = w := by
  simp [State.readX_writeX]

theorem State.readX_writeX_other (s : State) {i j : RegIdx} (w : Word) (h : j ≠ i) :
    (s.writeX i w).readX j = s.readX j := by
  simp [State.readX_writeX, Ne.symm h]

end Sys2Proof.Machine
end

