-- ==== Sys2Proof/Laws/Ops.lean ====
section
/-! SUPPORT. What each shared operation can answer, said once: completion, error, host access, the ENGINE's turn. -/

namespace Sys2Proof.Machine

theorem complete_eq_next {s t : State} : complete s = .next t ↔ t = { s with status := s.status.succeeded } := by
  simp [complete, eq_comm]

theorem raise_eq_next {e : ErrCode} {s t : State} :
    raise e s = .next t ↔ t = { s with status := s.status.failed e } := by
  simp [raise, eq_comm]

@[simp] theorem complete_ne_fault {s : State} {r : Fault} : complete s ≠ .fault r := by simp [complete]

@[simp] theorem raise_ne_fault {e : ErrCode} {s : State} {r : Fault} : raise e s ≠ .fault r := by simp [raise]

/-- The check of size, alignment and mapping passes exactly for an aligned 8-byte access to a mapped offset. -/
theorem checkAccess_eq_some {c : Config} {off : Offset} {size : Nat} {t : Target} :
    checkAccess c off size = some t ↔ size = 8 ∧ off.toNat % 8 = 0 ∧ targetAt c off.toNat = some t := by
  unfold checkAccess
  split
  · rename_i h
    simp [h]
  · split
    · rename_i _ h
      simp [h]
    · rename_i h1 h2
      simp only [ne_eq, Decidable.not_not] at h1 h2
      simp [h1, h2]

/-- A read of a mapped target changes the response alone, and the count of draws when the answer is drawn. -/
theorem readTarget_eq_next {t : Target} {s s' : State} (h : readTarget t s = .next s') :
    (∃ v, s.targetValue t = some v ∧ s' = s.respond (.data (lanes v))) ∨
      (s.status.busy = true ∧ s' = s.respondFree) := by
  unfold readTarget at h
  split at h
  · rename_i hb
    rw [Bool.and_eq_true] at hb
    cases h
    exact .inr ⟨hb.1, rfl⟩
  · split at h
    · rename_i v hv
      cases h
      exact .inl ⟨v, hv, rfl⟩
    · split at h
      · rename_i hb
        cases h
        exact .inr ⟨hb, rfl⟩
      · cases h

/-- A read of a mapped target faults only on an unwritten element while BUSY = 0. -/
theorem readTarget_eq_fault {t : Target} {s : State} {r : Fault} :
    readTarget t s = .fault r ↔ s.status.busy = false ∧ s.targetValue t = none := by
  cases r
  unfold readTarget
  split
  · rename_i hb
    rw [Bool.and_eq_true] at hb
    simp [hb.1]
  · cases ht : s.targetValue t with
    | some v => simp
    | none => cases hb : s.status.busy <;> simp

/-- What one host access can answer when it answers a next state. -/
theorem busAccess_eq_next {r : Request} {s s' : State} (h : busAccess r s = .next s') :
    s' = s.respond .busErr ∨
      (∃ off size t v, r = .read off size ∧ checkAccess s.cfg off size = some t ∧ s.targetValue t = some v ∧
        s' = s.respond (.data (lanes v))) ∨
      (∃ off size, r = .read off size ∧ s.status.busy = true ∧ s' = s.respondFree) ∨
      (∃ off bytes t, r = .write off bytes ∧ checkAccess s.cfg off bytes.length = some t ∧
        s.status.busy = true ∧ t.droppedWhileBusy = true ∧ s' = s.dropWrite.respond .okay) ∨
      (∃ off bytes t, r = .write off bytes ∧ checkAccess s.cfg off bytes.length = some t ∧
        t.readOnly = false ∧ (s.status.busy = true → t.droppedWhileBusy = false) ∧
        s' = (s.writeTarget (ofLanes bytes) t).respond .okay) := by
  cases r with
  | read off size =>
    simp only [busAccess] at h
    split at h
    · cases h
      exact .inl rfl
    · rename_i t ht
      rcases readTarget_eq_next h with ⟨v, hv, rfl⟩ | ⟨hb, rfl⟩
      · exact .inr (.inl ⟨off, size, t, v, rfl, ht, hv, rfl⟩)
      · exact .inr (.inr (.inl ⟨off, size, rfl, hb, rfl⟩))
  | write off bytes =>
    simp only [busAccess] at h
    split at h
    · cases h
      exact .inl rfl
    · rename_i t ht
      simp only [Host.Outcome.next.injEq, storeTarget] at h
      split at h
      · exact .inl h.symm
      · rename_i hro
        split at h
        · rename_i hd
          rw [Bool.and_eq_true] at hd
          exact .inr (.inr (.inr (.inl ⟨off, bytes, t, rfl, ht, hd.1, hd.2, h.symm⟩)))
        · rename_i hd
          refine .inr (.inr (.inr (.inr ⟨off, bytes, t, rfl, ht, by simpa using hro, ?_, h.symm⟩)))
          intro hb
          simpa [hb] using hd

/-- One host access faults only as a read of an unwritten element while BUSY = 0. -/
theorem busAccess_eq_fault {r : Request} {s : State} {f : Fault} (h : busAccess r s = .fault f) :
    ∃ off size t, r = .read off size ∧ checkAccess s.cfg off size = some t ∧ s.status.busy = false ∧
      s.targetValue t = none := by
  cases r with
  | read off size =>
    simp only [busAccess] at h
    split at h
    · cases h
    · rename_i t ht
      obtain ⟨hb, hv⟩ := readTarget_eq_fault.mp h
      exact ⟨off, size, t, rfl, ht, hb, hv⟩
  | write off bytes =>
    simp only [busAccess] at h
    split at h <;> cases h

/-- What the ENGINE's turn does: nothing while BUSY = 0, else the decoded command or ILLEGAL. -/
theorem engineTurn_cases (s : State) :
    (s.status.busy = false ∧ engineTurn s = .next s) ∨
      (s.status.busy = true ∧ ∃ e, decode s.inflight = .error e ∧ engineTurn s = raise .illegal s) ∨
      (s.status.busy = true ∧ ∃ i, decode s.inflight = .ok i ∧ engineTurn s = exec i s) := by
  unfold engineTurn
  cases hb : s.status.busy with
  | false => exact .inl ⟨rfl, by simp⟩
  | true =>
    right
    simp only [if_pos, completeInFlight]
    cases hd : decode s.inflight with
    | error e => exact .inl ⟨trivial, e, rfl, rfl⟩
    | ok i => exact .inr ⟨trivial, i, rfl, rfl⟩

/-- Recording answers next exactly with the next state given, or with the fault given recorded. -/
theorem recordFault_eq_next {s t : State} {o : Host.Outcome State Fault Refusal} :
    recordFault s o = .next t ↔ o = .next t ∨ ∃ f, o = .fault f ∧ t = { s with fault := some f } := by
  cases o with
  | next u => simp [recordFault]
  | refused r => simp [recordFault]
  | fault f =>
    constructor
    · intro h
      cases h
      exact .inr ⟨f, rfl, rfl⟩
    · rintro (h | ⟨g, h, rfl⟩) <;> cases h
      rfl

@[simp] theorem recordFault_ne_fault {s : State} {o : Host.Outcome State Fault Refusal} {f : Fault} :
    recordFault s o ≠ .fault f := by
  cases o <;> simp [recordFault]

/-- Without an assertion of `rst` there are no events after one. -/
theorem afterAssertion_eq_none {es : List Event} (h : Event.pin true ∉ es) : afterAssertion es = none := by
  induction es with
  | nil => rfl
  | cons e es ih =>
    obtain ⟨h1, h2⟩ := not_or.mp (List.mem_cons.not.mp h)
    cases e with
    | pin b =>
      cases b with
      | true => exact absurd rfl h1
      | false => exact ih h2
    | engine => exact ih h2
    | bus r => exact ih h2

/-- The first assertion of `rst` splits the events. -/
theorem afterAssertion_append {before after : List Event} (h : Event.pin true ∉ before) :
    afterAssertion (before ++ .pin true :: after) = some after := by
  induction before with
  | nil => rfl
  | cons e es ih =>
    obtain ⟨h1, h2⟩ := not_or.mp (List.mem_cons.not.mp h)
    cases e with
    | pin b =>
      cases b with
      | true => exact absurd rfl h1
      | false => exact ih h2
    | engine => exact ih h2
    | bus r => exact ih h2

/-- What a turn of a faulted block can answer: the reset that clears the fault, or the fault. -/
theorem faultedTurn_cases (f : Fault) (s : State) :
    (∃ rest, afterAssertion s.agenda = some rest ∧ faultedTurn f s = .next { s with agenda := rest }.asserted) ∨
      (afterAssertion s.agenda = none ∧ faultedTurn f s = .fault f) := by
  unfold faultedTurn
  cases h : afterAssertion s.agenda with
  | none => exact .inr ⟨rfl, rfl⟩
  | some rest => exact .inl ⟨rest, rfl, rfl⟩

end Sys2Proof.Machine
end

