-- ==== Sys2Proof/Laws/Cipher.lean ====
section
/-! SUPPORT. What transforming DATA in place can answer, and the range of one transformed element
(41_cipher_datapath.md R83 to R88). -/

namespace Sys2Proof.Machine

@[simp] theorem mapElems_length (f : Nat → Int → Int) (i : Nat) (ws : List Word) :
    (mapElems f i ws).length = ws.length := by
  induction ws generalizing i with
  | nil => rfl
  | cons w ws ih => simp [mapElems, ih]

theorem mapElems_getElem? (f : Nat → Int → Int) (i j : Nat) (ws : List Word) :
    (mapElems f i ws)[j]? = ws[j]?.map fun w => enc (f (i + j) (sint w)) := by
  induction ws generalizing i j with
  | nil => rfl
  | cons w ws ih =>
    cases j with
    | zero => rfl
    | succ j =>
      rw [mapElems, List.getElem?_cons_succ, List.getElem?_cons_succ, ih, show i + 1 + j = i + (j + 1) by omega]

theorem dataAddr_add (i : Nat) : dataAddr 0 + 8 * i = dataAddr i := rfl

theorem keyAddr_add (i : Nat) : keyAddr 0 + 8 * i = keyAddr i := rfl

theorem State.readSequence_eq_some {s : State} {ws : List Word} :
    s.readSequence = some ws ↔ ws.length = uint s.dlen ∧ ∀ i, i < uint s.dlen → s.dataAt i = ws[i]? :=
  Memory.readElems_eq_some

theorem State.readKeyStream_eq_some {s : State} {ks : List Word} :
    s.readKeyStream = some ks ↔
      ks.length = min (uint s.klen) (uint s.dlen) ∧
        ∀ j, j < min (uint s.klen) (uint s.dlen) → s.keyAt j = ks[j]? :=
  Memory.readElems_eq_some

theorem State.readSequence_isSome {s : State} :
    s.readSequence.isSome ↔ ∀ i, i < uint s.dlen → (s.dataAt i).isSome := Memory.readElems_isSome

theorem State.readKeyStream_isSome {s : State} :
    s.readKeyStream.isSome ↔ ∀ j, j < min (uint s.klen) (uint s.dlen) → (s.keyAt j).isSome :=
  Memory.readElems_isSome

/-- Transforming DATA in place: when it answers next, every element it read was written, each is replaced by its
transform, only DATA[0 .. DLEN-1] and STATUS change, and the command completed without error. -/
theorem transformData_eq_next {f : Nat → Int → Int} {s t : State} (h : transformData f s = .next t) :
    t = { s with mem := t.mem, status := s.status.succeeded } ∧
      (∀ i, i < uint s.dlen → ∃ w, s.dataAt i = some w ∧ t.dataAt i = some (enc (f i (sint w)))) ∧
      (∀ a, a < dataAddr 0 ∨ dataAddr (uint s.dlen) ≤ a → Memory.read t.mem a = Memory.read s.mem a) ∧
      (∀ a, dataAddr 0 ≤ a → a < dataAddr (uint s.dlen) → (Memory.read t.mem a).isSome) ∧
      (Memory.wf s.mem = true → Memory.wf t.mem = true) := by
  unfold transformData at h
  split at h
  · cases h
  · rename_i ws hws
    rw [complete_eq_next] at h
    subst h
    obtain ⟨hl, hw⟩ := State.readSequence_eq_some.mp hws
    have hlen : (mapElems f 0 ws).length = uint s.dlen := by rw [mapElems_length, hl]
    refine ⟨rfl, ?_, ?_, ?_, ?_⟩
    · intro i hi
      refine ⟨ws[i]'(by omega), ?_, ?_⟩
      · rw [hw i hi, List.getElem?_eq_getElem]
      · show Memory.readWord (Memory.writeElems s.mem (dataAddr 0) (mapElems f 0 ws)) (dataAddr 0 + 8 * i) = _
        rw [Memory.readWord_writeElems_same _ _ _ (by omega), mapElems_getElem?, List.getElem?_eq_getElem (by omega)]
        simp
    · intro a ha
      exact Memory.read_writeElems_other _ _ _ (by rw [hlen, dataAddr_add]; exact ha)
    · intro a h1 h2
      exact Memory.read_writeElems_isSome _ _ _ (by rw [hlen, dataAddr_add]; exact ⟨h1, h2⟩)
    · exact Memory.wf_writeElems _ _

/-- Transforming DATA in place answers next when every element it reads is written. -/
theorem transformData_completes (f : Nat → Int → Int) {s : State}
    (h : ∀ i, i < uint s.dlen → (s.dataAt i).isSome) : ∃ t, transformData f s = .next t := by
  obtain ⟨ws, hws⟩ := Option.isSome_iff_exists.mp (State.readSequence_isSome.mpr h)
  exact ⟨_, by simp only [transformData, hws]; rfl⟩

/-- The shared checks pass exactly when N > 0, DLEN is at most DMAX, and the command's own checks pass (R84). -/
theorem sequenceCheck_eq_none {s : State} {own : Option ErrCode} :
    sequenceCheck s own = none ↔ 0 < sint s.n ∧ uint s.dlen ≤ s.cfg.dmax ∧ own = none := by
  unfold sequenceCheck
  split
  · simp only [reduceCtorEq, false_iff]
    omega
  · split
    · simp only [reduceCtorEq, false_iff]
      omega
    · constructor
      · intro h
        exact ⟨by omega, by omega, h⟩
      · rintro ⟨_, _, h⟩
        exact h

theorem keyCheck_eq_none {s : State} : keyCheck s = none ↔ 0 < uint s.klen ∧ uint s.klen ≤ s.cfg.kmax := by
  unfold keyCheck
  split
  · simp only [reduceCtorEq, false_iff]
    omega
  · split
    · simp only [reduceCtorEq, false_iff]
      omega
    · simp only [true_iff]
      omega

theorem configuredCheck_eq_none {s : State} : configuredCheck s = none ↔ s.status.afv = true := by
  unfold configuredCheck
  split <;> simp_all

/-- A guarded element's value survives the write: it is a residue modulo N, or the value itself (R88). -/
theorem sint_enc_guarded {n : Word} {z : Int} (w : Word) (h0 : 0 ≤ z) (h1 : z < sint n) :
    sint (enc (guarded (sint n) (sint w) z)) = guarded (sint n) (sint w) z := by
  unfold guarded
  split
  · have := sint_upper n
    exact sint_enc (by omega) (by omega)
  · rw [enc_sint]

end Sys2Proof.Machine
end

