-- ==== Sys2Proof/Laws/PerInstr.lean ====
section
/-! SUPPORT. Facts about every command, one lemma per constructor. -/

namespace Sys2Proof.Laws.OpcodeField

/-- The low byte of a command's word is its opcode (30_encoding.md R67). -/
def Statement (i : Instr) : Prop := opField (cmdWrite (encode i)) = i.opcode

theorem op_of_packFields (rs3 rs2 rs1 rd : BitVec 3) (op : BitVec 8) :
    opField (cmdWrite (packFields rs3 rs2 rs1 rd op)) = op := by
  apply BitVec.eq_of_toNat_eq
  have h1 := rs3.isLt
  have h2 := rs2.isLt
  have h3 := rs1.isLt
  have h4 := rd.isLt
  have h5 := op.isLt
  simp only [opField, cmdWrite, packFields, BitVec.extractLsb'_toNat, BitVec.toNat_setWidth, BitVec.toNat_append,
    Nat.shiftRight_zero, Nat.shiftLeft_eq]
  rw [Nat.mod_mod_of_dvd _ (by decide)]
  rw [Nat.mul_comm, ← Nat.two_pow_add_eq_or_of_lt h5]
  omega

theorem nop : Statement .nop := op_of_packFields _ _ _ _ _
theorem mod (rd rs1 rs2 : RegIdx) : Statement (.mod rd rs1 rs2) := op_of_packFields _ _ _ _ _
theorem gcd (rd rs1 rs2 : RegIdx) : Statement (.gcd rd rs1 rs2) := op_of_packFields _ _ _ _ _
theorem extgcd (rd rs1 rs2 : RegIdx) : Statement (.extgcd rd rs1 rs2) := op_of_packFields _ _ _ _ _
theorem modinv (rd rs1 rs2 : RegIdx) : Statement (.modinv rd rs1 rs2) := op_of_packFields _ _ _ _ _
theorem modpow (rd rs1 rs2 rs3 : RegIdx) : Statement (.modpow rd rs1 rs2 rs3) := op_of_packFields _ _ _ _ _
theorem shenc : Statement .shenc := op_of_packFields _ _ _ _ _
theorem shdec : Statement .shdec := op_of_packFields _ _ _ _ _
theorem afcfg : Statement .afcfg := op_of_packFields _ _ _ _ _
theorem afenc : Statement .afenc := op_of_packFields _ _ _ _ _
theorem afdec : Statement .afdec := op_of_packFields _ _ _ _ _
theorem paenc : Statement .paenc := op_of_packFields _ _ _ _ _
theorem padec : Statement .padec := op_of_packFields _ _ _ _ _

end Sys2Proof.Laws.OpcodeField
end

