-- ==== Sys2Proof/Laws/Run.lean ====
section
/-! SUPPORT. What a step can be, and what a run of several steps does, by its first step. -/

namespace Sys2Proof.Laws

theorem run_next (M : Host.Core) {k : Nat} {s t : M.State} (h : M.step s = .next t) :
    Host.Core.run M (k + 1) s = Host.Core.run M k t := by
  rw [Host.Core.run, h]

theorem run_fault (M : Host.Core) {k : Nat} {s : M.State} {f : M.Fault} (h : M.step s = .fault f) :
    Host.Core.run M (k + 1) s = .fault f := by
  rw [Host.Core.run, h]

theorem run_refused (M : Host.Core) {k : Nat} {s : M.State} {r : M.Refusal} (h : M.step s = .refused r) :
    Host.Core.run M (k + 1) s = .refused r := by
  rw [Host.Core.run, h]

/-- A run of the engine of k + 1 steps whose first step answers t is a run of k steps from t. -/
theorem core_run_next {k : Nat} {s t : Machine.State} (h : Machine.step s = .next t) :
    Host.Core.run Sys2Proof.core (k + 1) s = Host.Core.run Sys2Proof.core k t := run_next Sys2Proof.core h

/-- A run of the engine whose first step faults has faulted. -/
theorem core_run_fault {k : Nat} {s : Machine.State} {f : Machine.Fault} (h : Machine.step s = .fault f) :
    Host.Core.run Sys2Proof.core (k + 1) s = .fault f := run_fault Sys2Proof.core h

open Sys2Proof.Machine in
/-- What a step is: with no fault recorded, the next event, and a fault of it recorded; else a turn of the faulted block. -/
theorem step_cases (s : Machine.State) :
    (s.fault = none ∧ step s = ordinaryTurn s) ∨
    ∃ f, s.fault = some f ∧ step s = faultedTurn f s := by
  unfold step
  cases h : s.fault with
  | none => exact .inl ⟨rfl, rfl⟩
  | some f => exact .inr ⟨f, rfl, rfl⟩

end Sys2Proof.Laws
end

