-- ==== Sys2Proof/Tests/Slice0.lean ====
section
/-! SUPPORT. Tests of single steps, with expected results from the vectors of spec/95_test_vectors.md (named in each
docstring) or by hand from the rules, and a witness for the hypotheses of every statement. -/

namespace Sys2Proof.Tests

open Sys2Proof.Machine

/-! ### Small states -/

/-- The reset state with operand registers xs. -/
def withX (xs : Vector Word 8) : State := { State.reset with x := xs }

/-- The state with DATA[0 .. ] and DLEN from a list. -/
def putData (ws : List Word) (s : State) : State :=
  { s with mem := Memory.writeElems s.mem (dataAddr 0) ws, dlen := BitVec.ofNat 64 ws.length }

/-- The state with KEY[0 .. ] and KLEN from a list. -/
def putKey (ws : List Word) (s : State) : State :=
  { s with mem := Memory.writeElems s.mem (keyAddr 0) ws, klen := BitVec.ofNat 64 ws.length }

/-- N = 26, with shift key k. -/
def shift (k : Word) : State := { State.reset with n := 26, shk := k }

/-- N = 26, AFA = a, AFB = 7, not configured. -/
def affine (a : Word) : State := { State.reset with n := 26, afa := a, afb := 7 }

/-- N = 26, AFA = 5, AFB = 7, configured: AFAINV = 21 and AFV = 1 (95 S-2). -/
def configured : State := { affine 5 with afainv := 21 }.setAfv true

/-- What a next state shows through f. -/
def shown {α : Type} (f : State → α) : Host.Outcome State Fault Refusal → Option α
  | .next t => some (f t)
  | .fault _ => none
  | .refused _ => none

/-- The command word v written to CMD in state s, and the completion after it. -/
def runWord (v : Word) (s : State) : Host.Outcome State Fault Refusal := engineTurn (s.issue v)

/-- STATUS as software reads it. -/
def statusOf (s : State) : Word := s.status.word

/-- X3 and STATUS. -/
def x3 (s : State) : Word × Word := (s.readX 3, s.status.word)

/-- The first k elements of DATA, and STATUS. -/
def dataOf (k : Nat) (s : State) : Option (List Word) × Word :=
  (Memory.readElems s.mem (dataAddr 0) k, s.status.word)

/-- M - 1 = 2^63 - 1, the largest value. -/
def top : Word := 0x7FFFFFFFFFFFFFFF

/-- -M = -2^63, the least value. -/
def bottom : Word := 0x8000000000000000

/-! ### WellFormed -/

/-- The one check, R72 (4): RD = 6 and RD = 7 are refused for EXTGCD. -/
theorem test_extgcd_destination_above_5_is_ill_formed :
    (Instr.extgcd 6 0 1).wellFormed = false ∧ (Instr.extgcd 7 0 1).wellFormed = false ∧
      (Instr.extgcd 5 6 7).wellFormed = true := by decide

/-! ### Decoding: words written out bit by bit as the picture of R67, RSV RS3 RS2 RS1 RD OP -/

theorem test_decode_number_theory :
    decodeTableWord 32 0b000000000000_000_001_000_011_00000001 = some (.mod 3 0 1) ∧
    decodeTableWord 32 0b000000000000_000_001_000_010_00000010 = some (.gcd 2 0 1) ∧
    decodeTableWord 32 0b000000000000_000_111_110_101_00000011 = some (.extgcd 5 6 7) ∧
    decodeTableWord 32 0b000000000000_000_001_010_100_00000100 = some (.modinv 4 2 1) ∧
    decodeTableWord 32 0b000000000000_010_001_000_011_00000101 = some (.modpow 3 0 1 2) := by decide

theorem test_decode_cipher :
    decodeTableWord 32 0b000000000000_000_000_000_000_00010000 = some .shenc ∧
    decodeTableWord 32 0b000000000000_000_000_000_000_00010001 = some .shdec ∧
    decodeTableWord 32 0b000000000000_000_000_000_000_00010010 = some .afcfg ∧
    decodeTableWord 32 0b000000000000_000_000_000_000_00010011 = some .afenc ∧
    decodeTableWord 32 0b000000000000_000_000_000_000_00010100 = some .afdec ∧
    decodeTableWord 32 0b000000000000_000_000_000_000_00010101 = some .paenc ∧
    decodeTableWord 32 0b000000000000_000_000_000_000_00010110 = some .padec := by decide

theorem test_decode_control :
    decodeTableWord 32 0b000000000000_000_000_000_000_00000000 = some .nop := by decide

/-- DEC-2 to DEC-9. -/
theorem test_decode_rejects_illegal_words :
    decodeTableWord 32 0x00000006 = none ∧ decodeTableWord 32 0x000000FF = none ∧
    decodeTableWord 32 0x00000100 = none ∧ decodeTableWord 32 0x00000112 = none ∧
    decodeTableWord 32 0x00020001 = none ∧ decodeTableWord 32 0x00100000 = none ∧
    decodeTableWord 32 0x00004603 = none ∧ decodeTableWord 64 0x100000000 = none := by decide

/-- The example of R73, and the words of 95 P2. -/
theorem test_encode_words_of_the_programs :
    encode (.modpow 3 0 1 2) = 0x00044305 ∧ encode (.modinv 4 2 1) = 0x00005404 ∧
    encode (.modpow 6 5 4 0) = 0x00012E05 ∧ encode (.extgcd 5 6 7) = 0x0001F503 ∧
    encode (.mod 7 7 0) = 0x00003F01 ∧ encode .padec = 0x00000016 := by decide

/-! ### One step of each command -/

/-- MOD-1. -/
theorem test_mod_of_negative : shown x3 (runWord 0x4301 (withX #v[-7, 3, 0, 0, 0, 0, 0, 0])) = some (2, 0x002) := by
  decide

/-- MOD-11: the destination is both sources. -/
theorem test_mod_of_itself :
    shown (fun t => (t.readX 0, statusOf t)) (runWord 0x0001 (withX #v[5, 0, 0, 0, 0, 0, 0, 0])) = some (0, 0x002) := by
  decide

/-- GCD-2. -/
theorem test_gcd : shown x3 (runWord 0x4302 (withX #v[18, 48, 0, 0, 0, 0, 0, 0])) = some (6, 0x002) := by decide

/-- GCD-8. -/
theorem test_gcd_of_negative_is_domain :
    shown x3 (runWord 0x4302 (withX #v[5, -1, 0, 9, 0, 0, 0, 0])) = some (9, 0x016) := by decide

/-- EE-9: the longest Euclidean chain that fits. -/
theorem test_extgcd_of_consecutive_fibonacci_numbers :
    shown (fun t => (t.readX 3, t.readX 4, t.readX 5))
      (runWord 0x4303 (withX #v[7540113804746346429, 4660046610375530309, 0, 0, 0, 0, 0, 0])) =
        some (1, 1779979416004714189, -2880067194370816120) := by decide +kernel

/-- EE-12: the sources are overwritten, after being read. -/
theorem test_extgcd_over_its_sources :
    shown (fun t => (t.readX 5, t.readX 6, t.readX 7, statusOf t))
      (runWord 0x1F503 (withX #v[0, 0, 0, 0, 0, 0, 4, 6])) = some (2, -1, 1, 0x002) := by decide

/-- INV-2. -/
theorem test_modinv : shown x3 (runWord 0x4304 (withX #v[5, 72, 0, 0, 0, 0, 0, 0])) = some (29, 0x002) := by decide

/-- INV-8. -/
theorem test_modinv_of_non_unit :
    shown x3 (runWord 0x4304 (withX #v[4, 26, 0, 9, 0, 0, 0, 0])) = some (9, 0x026) := by decide

/-- POW-4. -/
theorem test_modpow : shown x3 (runWord 0x44305 (withX #v[4, 13, 497, 0, 0, 0, 0, 0])) = some (445, 0x002) := by decide

/-- POW-9: 63 squarings, every product exact. -/
theorem test_modpow_of_the_largest_exponent :
    shown x3 (runWord 0x44305 (withX #v[5, top, top, 0, 0, 0, 0, 0])) = some (3427875542861750265, 0x002) := by
  decide +kernel

/-- DEC-1, from the STATUS of R100's example. -/
theorem test_nop_clears_the_error :
    shown statusOf (runWord 0 { State.reset with status := { Status.reset with done := true, err := true, errCode := .illegal } }) =
      some 0x0002 := by decide

/-- DEC-5: an illegal AFCFG does not clear AFV. -/
theorem test_illegal_afcfg_keeps_afv : shown statusOf (runWord 0x112 configured) = some 0x146 := by decide

/-- SH-2. -/
theorem test_shenc_with_pass_through :
    shown (dataOf 4) (runWord 0x10 (putData [25, 26, -1, 0] (shift (-3)))) = some (some [22, 26, -1, 23], 0x002) := by
  decide +kernel

/-- SH-12. -/
theorem test_shenc_of_unwritten_element :
    runWord 0x10 { shift 0 with dlen := 1 } = .fault .unwrittenRead := rfl

/-- SH-4. -/
theorem test_shdec_with_pass_through :
    shown (dataOf 4) (runWord 0x11 (putData [0, 25, -5, 100] (shift 5))) = some (some [21, 20, -5, 100], 0x002) := by
  decide +kernel

/-- SH-7. -/
theorem test_shdec_with_least_key :
    shown (dataOf 1) (runWord 0x11 (putData [0] (shift bottom))) = some (some [8], 0x002) := by decide +kernel

/-- AF-3. -/
theorem test_afcfg : shown (fun t => (t.afainv, statusOf t)) (runWord 0x12 (affine 31)) = some (21, 0x102) := by decide

/-- AF-2, after AF-1: AFAINV stays and AFV is cleared. -/
theorem test_afcfg_of_non_unit :
    shown (fun t => (t.afainv, statusOf t)) (runWord 0x12 { configured with afa := 13 }) = some (21, 0x026) := by decide

/-- AF-10: no range guard. -/
theorem test_afenc_without_guard :
    shown (dataOf 3) (runWord 0x13 (putData [26, -1, 30] configured)) = some (some [7, 2, 1], 0x102) := by
  decide +kernel

/-- AF-15. -/
theorem test_afenc_not_configured :
    shown (dataOf 2) (runWord 0x13 (putData [0, 15] (affine 5))) = some (some [0, 15], 0x056) := by decide +kernel

/-- AF-11. -/
theorem test_afdec : shown (dataOf 3) (runWord 0x14 (putData [7, 2, 1] configured)) = some (some [0, 25, 4], 0x102) := by
  decide +kernel

/-- AF-14: N = 26, AFA = M - 1, AFAINV = 15 (AF-13), AFB = -M. -/
theorem test_afdec_of_extreme_values :
    shown (dataOf 2) (runWord 0x14 (putData [0, 25] { configured with afa := top, afainv := 15, afb := bottom })) =
      some (some [16, 1], 0x102) := by decide +kernel

/-- PA-3: the element passed through still uses key position 1. -/
theorem test_paenc_keeps_key_positions :
    shown (dataOf 5) (runWord 0x15 (putKey [3, 1, 4] (putData [0, 99, 15, 11, -2] (shift 0)))) =
      some (some [3, 99, 19, 14, -2], 0x002) := by decide +kernel

/-- PA-7: only KEY[0 .. min(KLEN, DLEN)-1] is read. -/
theorem test_paenc_reads_no_further_key :
    shown (dataOf 2) (runWord 0x15 { putKey [5, 6] (putData [1, 2] (shift 0)) with klen := 5 }) =
      some (some [6, 8], 0x002) := by decide +kernel

/-- PA-2. -/
theorem test_padec :
    shown (dataOf 5) (runWord 0x16 (putKey [3, 1, 4] (putData [3, 16, 19, 14, 5] (shift 0)))) =
      some (some [0, 15, 15, 11, 4], 0x002) := by decide +kernel

/-- PA-12: the DLEN check comes before the KLEN check. -/
theorem test_padec_checks_dlen_before_klen :
    shown statusOf (runWord 0x16 { shift 0 with dlen := 257 }) = some 0x066 := by decide

/-! ### The bus -/

/-- The answer of the port. -/
def answerOf (s : State) : Option Response := s.response

/-- BUS-1 to BUS-7. -/
theorem test_bus_errors :
    shown answerOf (busAccess (.read 0x0000 8) State.reset) = some (some (.data [0, 0, 0, 0, 0, 0, 0, 0])) ∧
    shown answerOf (busAccess (.read 0x0008 4) State.reset) = some (some .busErr) ∧
    shown answerOf (busAccess (.read 0x0024 8) State.reset) = some (some .busErr) ∧
    shown answerOf (busAccess (.read 0x0018 8) State.reset) = some (some .busErr) ∧
    shown answerOf (busAccess (.read 0x1800 8) State.reset) = some (some .busErr) ∧
    shown answerOf (busAccess (.read 0x3000 8) State.reset) = some (some .busErr) ∧
    shown answerOf (busAccess (.write 0x0080 [0, 0, 0, 0, 0, 0, 0, 0]) State.reset) = some (some .busErr) := by decide

/-- BUS-8. -/
theorem test_bus_read_of_unwritten_element : 
    busAccess (.read 0x1000 8) State.reset = .fault .unwrittenRead := rfl

/-- BUS-9: lane 0 carries 0x08 and lane 7 carries 0x01. -/
theorem test_bus_byte_order :
    shown (fun t => t.readX 0) (busAccess (.write 0x0020 [8, 7, 6, 5, 4, 3, 2, 1]) State.reset) =
      some 0x0102030405060708 := by decide

/-- BUS-10. -/
theorem test_bus_ctrl :
    shown (fun t => shown answerOf (busAccess (.read 0x0010 8) t))
      (busAccess (.write 0x0010 [0xFF, 0xFF, 0, 0, 0, 0, 0, 0]) State.reset) =
        some (some (some (.data [1, 0, 0, 0, 0, 0, 0, 0]))) := by decide

/-- BSY-1: X0 = 5, X1 = 3 and MOD X2 just issued. -/
def inFlight : State := (withX #v[5, 3, 0, 0, 0, 0, 0, 0]).issue 0x4201

/-- BSY-2, BSY-3, BSY-4. -/
theorem test_busy_writes :
    shown (fun t => (t.readX 0, statusOf t, answerOf t)) (busAccess (writeOf (.x 0) 99) inFlight) =
      some (5, 0x201, some .okay) ∧
    shown (fun t => (statusOf t, answerOf t)) (busAccess (writeOf .afainv 1) inFlight) = some (0x001, some .busErr) ∧
    shown (fun t => (t.inflight, statusOf t)) (busAccess (writeOf .cmd 0) inFlight) = some (0x4201, 0x201) := by decide

/-- BSY-7, BSY-8. -/
theorem test_busy_reads_and_ctrl :
    shown answerOf (busAccess (readOf .n) inFlight) = some (some (.data [0, 0, 0, 0, 0, 0, 0, 0])) ∧
    shown (fun t => (t.ie, statusOf t)) (busAccess (writeOf .ctrl 0xFFFF) inFlight) = some (true, 0x001) := by decide

/-- BSY-5: a busy read of X0 is the next free value, whatever it is, and faults never. -/
theorem test_busy_read_draws :
    busAccess (readOf (.x 0)) inFlight =
      .next { inFlight with response := some (.data (lanes (Config.freeRead 0))), draws := 1 } := by rfl

/-- BSY-9, with IE = 1 and BOVR = 1. -/
theorem test_completion_raises_irq :
    shown (fun t => (t.readX 0, t.readX 1, t.readX 2, statusOf t, t.irq)) (engineTurn { inFlight.dropWrite with ie := true }) =
      some (5, 3, 2, 0x202, true) := by decide

/-- BSY-10. -/
theorem test_status_acknowledges :
    shown (fun t => (statusOf t, t.irq)) (busAccess (writeOf .status 0x202)
      { State.reset with ie := true, status := { Status.reset with done := true, bovr := true } }) =
        some (0x000, false) := by decide

/-- AF-17, AF-18. -/
theorem test_writes_and_afv :
    shown (fun t => t.status.afv) (busAccess (writeOf .afb 9) configured) = some true ∧
    shown (fun t => t.status.afv) (busAccess (writeOf .n 26) configured) = some false := by decide

/-! ### The step -/

/-- The host's fetch word runs as the very next step. -/
theorem test_fetch_word_runs_next :
    shown x3 (step ((withX #v[-7, 3, 0, 0, 0, 0, 0, 0]).withFetchWord 32 0x4301)) = some (2, 0x002) := by decide

/-- Reset and nothing placed: the machine idles (60_exceptions.md R117). -/
theorem test_idle_keeps_all_state : step State.reset = .next State.reset := rfl

/-- 70_reset_and_hazards.md R120: a command in flight is aborted, its result never written. -/
theorem test_reset_aborts_the_command :
    shown (fun t => (t.readX 0, t.readX 2, statusOf t, t.rst)) (step { inFlight with agenda := [.pin true] }) =
      some (0, 0, 0, true) := by decide

/-- 10_state.md R42 and 70_reset_and_hazards.md R119: SHENC of an unwritten element records the fault, the assertion of
`rst` clears it, and after release a write is accepted (SH-12 for the start). -/
theorem test_reset_clears_the_fault :
    let s : State := { ({ shift 0 with dlen := 1 }.issue 0x10) with
      agenda := [.engine, .bus (readOf .n), .pin true, .pin false, .bus (writeOf (.x 0) 7)] }
    shown (fun t => (t.fault, t.n)) (step s) = some (some .unwrittenRead, 26) ∧
    shown (fun t => (t.fault, t.n, t.rst)) (Host.Core.run Sys2Proof.core 2 s) = some (none, 0, true) ∧
    shown (fun t => (t.fault, t.readX 0)) (Host.Core.run Sys2Proof.core 4 s) = some (none, 7) := by decide

/-- 60_exceptions.md R118: without a reset to come, the run stops with the fault. -/
theorem test_fault_without_reset_stops :
    step { State.reset with fault := some .unwrittenRead, agenda := [.engine, .pin false] } = .fault .unwrittenRead := rfl

/-- 95 P5, both interleavings of the racing write and the completion. -/
theorem test_race_admits_both_orders :
    shown (fun t => (t.readX 0, statusOf t))
      (Host.Core.run Sys2Proof.core 2 { inFlight with agenda := [.engine, .bus (writeOf (.x 0) 7)] }) = some (7, 0x002) ∧
    shown (fun t => (t.readX 0, statusOf t))
      (Host.Core.run Sys2Proof.core 2 { inFlight with agenda := [.bus (writeOf (.x 0) 7), .engine] }) = some (5, 0x202) := by
  decide

/-! ### Witnesses: for each statement with hypotheses, states and operands that meet them together -/

theorem witness_DecodeOfEncodeIsTheCommand :
    (Instr.extgcd 5 7 7).wellFormed = true ∧ (Instr.modpow 7 7 7 7).wellFormed = true ∧ Instr.nop.wellFormed = true := by
  decide

/-- RD = 5, the last destination of EXTGCD, and every register field at 7. -/
theorem witness_DecodedWordIsItsEncoding :
    decode 0x0001FD03 = .ok (.extgcd 5 7 7) ∧ decode 0x000FFF05 = .ok (.modpow 7 7 7 7) := ⟨rfl, rfl⟩

/-- A word that meets mask and match, and a word that decodes. -/
theorem witness_DecodingAgreesWithMatchAndMask :
    upperField 0x0001FD03 = 0 ∧
      (0x0001FD03 : Word).setWidth 32 &&& (Instr.extgcd 0 0 0).mask = (Instr.extgcd 0 0 0).opcode.setWidth 32 ∧
      (rdField 0x0001FD03).toNat ≤ 5 := by decide

/-- Each clause of R72 broken alone, beside the last legal words; and the two hypotheses on BUSY. -/
theorem witness_IllegalWordCompletesWithIllegal :
    ¬LegalWord 0x06 ∧ ¬LegalWord 0x17 ∧ ¬LegalWord 0x100001 ∧ ¬LegalWord 0x20001 ∧ ¬LegalWord 0x116 ∧
      ¬LegalWord 0x4603 ∧ ¬LegalWord 0x100000000 ∧ LegalWord 0x16 ∧ LegalWord 0x4503 ∧
      State.reset.status.busy = false ∧ (State.reset.issue 0x4603).status.busy = true ∧
      ¬LegalWord (State.reset.issue 0x4603).inflight := by
  refine ⟨?_, ?_, ?_, ?_, ?_, ?_, ?_, ?_, ?_, rfl, rfl, ?_⟩ <;> unfold LegalWord <;> decide

theorem witness_StepRunsTheDecodedCommand :
    inFlight.fault = none ∧ inFlight.status.busy = true ∧ decode inFlight.inflight = .ok (.mod 2 0 1) ∧
      EngineNext inFlight ∧ EngineNext { inFlight with agenda := [.engine, .pin true] } :=
  ⟨rfl, rfl, rfl, .inl rfl, .inr ⟨_, rfl⟩⟩

theorem witness_StepServesTheOldestEvent :
    (∃ s : State, s.fault = none ∧ s.agenda = [.bus (readOf .n)] ∧ s.rst = false) ∧
    (∃ s : State, s.fault = none ∧ s.agenda = [] ∧ s.status.busy = false) ∧
    (∃ s : State, s.fault = none ∧ s.agenda = [.engine] ∧ s.status.busy = false) ∧
    (∃ s : State, s.fault = none ∧ s.agenda = [.pin false]) :=
  ⟨⟨{ State.reset with agenda := [.bus (readOf .n)] }, rfl, rfl, rfl⟩, ⟨State.reset, rfl, rfl, rfl⟩,
    ⟨{ State.reset with agenda := [.engine] }, rfl, rfl, rfl⟩, ⟨{ State.reset with agenda := [.pin false] }, rfl, rfl⟩⟩

theorem witness_CmdWriteThenTurnRunsTheCommand :
    ∃ s : State, (Instr.extgcd 5 6 7).wellFormed = true ∧ s.fault = none ∧ s.status.busy = false ∧ s.rst = false ∧
      s.agenda = .bus (writeOf .cmd (cmdWrite (encode (.extgcd 5 6 7)))) :: .engine :: [.pin true] :=
  ⟨{ State.reset with agenda := .bus (writeOf .cmd (cmdWrite (encode (.extgcd 5 6 7)))) :: .engine :: [.pin true] },
    rfl, rfl, rfl, rfl, rfl⟩

/-- A command in flight, registers set, and `rst` about to be asserted; and a faulted state with events before the
assertion, and one with none. -/
theorem witness_ResetLeavesTheValuesOfTheTable :
    (∃ s : State, s.agenda = .pin true :: [.engine] ∧ s.status.busy = true ∧ s.readX 0 = 5) ∧
    (∃ s : State, s.fault = some .unwrittenRead ∧ s.agenda = [.engine, .pin false] ++ .pin true :: [.engine] ∧
      Event.pin true ∉ [Event.engine, .pin false]) ∧
    ∃ s : State, s.fault = some .unwrittenRead ∧ s.agenda = [] ++ .pin true :: [] ∧ Event.pin true ∉ [] :=
  ⟨⟨{ inFlight with agenda := [.pin true, .engine] }, rfl, rfl, rfl⟩,
    ⟨{ inFlight with fault := some .unwrittenRead, agenda := [.engine, .pin false, .pin true, .engine] }, rfl, rfl,
      by decide⟩,
    { inFlight with fault := some .unwrittenRead, agenda := [.pin true] }, rfl, rfl, by decide⟩

/-- Both clauses: no pin change, and a change after another request, to either level. -/
theorem witness_RequestDuringResetWaits :
    (∃ s : State, s.fault = none ∧ s.rst = true ∧ s.agenda = .bus (readOf .n) :: [.engine] ∧ ∀ b, Event.pin b ∉ [Event.engine]) ∧
    ∀ level, ∃ s : State, s.fault = none ∧ s.rst = true ∧
      s.agenda = .bus (readOf .n) :: ([.engine, .bus (readOf .shk)] ++ .pin level :: [.engine]) ∧
      ∀ c, Event.pin c ∉ [Event.engine, .bus (readOf .shk)] := by
  refine ⟨⟨{ State.reset with rst := true, agenda := [.bus (readOf .n), .engine] }, rfl, rfl, rfl,
    by simp⟩, fun level => ?_⟩
  exact ⟨{ State.reset with
    rst := true, agenda := .bus (readOf .n) :: ([.engine, .bus (readOf .shk)] ++ .pin level :: [.engine]) },
    rfl, rfl, rfl, by simp⟩

/-- N = 26, configured, DATA[0] written, SHENC in flight. -/
def shiftInFlight : State := (putData [0] configured).issue 0x10

theorem shiftInFlight_inv : shiftInFlight.Inv where
  cfg := by decide
  canonical := by decide +kernel
  inWindows := by
    intro a ha
    have h := Memory.read_writeWord [] (dataAddr 0) a 0
    change (Memory.read (Memory.writeWord [] (dataAddr 0) 0) a).isSome at ha
    rw [h] at ha
    split at ha
    · rename_i hr
      left
      simp only [dataAddr] at hr
      change 0x1000 ≤ a ∧ a < 0x1000 + 8 * 256
      omega
    · cases ha
  whole := by
    intro a b hab
    change (Memory.read (Memory.writeWord [] (dataAddr 0) 0) a).isSome ↔
      (Memory.read (Memory.writeWord [] (dataAddr 0) 0) b).isSome
    have h : ∀ k, (Memory.read (Memory.writeWord [] (dataAddr 0) 0) k).isSome = true ↔
        dataAddr 0 ≤ k ∧ k < dataAddr 0 + 8 := by
      intro k
      rw [Memory.read_writeWord]
      split
      · rename_i hr
        simp only [hr, and_self, iff_true]
        rw [List.getElem?_eq_getElem (by simp only [lanes_length]; omega)]
        rfl
      · rename_i hr
        simp [hr, Memory.read]
    rw [h, h]
    simp only [dataAddr]
    omega
  status := by decide
  inverse := by
    intro _
    decide
  reset := by
    intro h
    cases h

theorem witness_StepKeepsTheInvariant : ∃ s t : State, s.Inv ∧ step s = .next t := ⟨shiftInFlight, _, shiftInFlight_inv, rfl⟩

theorem witness_AccessOfAnotherSizeGetsBusErr : (4 : Nat) ≠ 8 ∧ (16 : Nat) ≠ 8 ∧ ([] : List Byte).length ≠ 8 := by decide

theorem witness_MisalignedAccessGetsBusErr :
    (0x0001 : Offset).toNat % 8 ≠ 0 ∧ (0x0024 : Offset).toNat % 8 ≠ 0 ∧ (0x3FFF : Offset).toNat % 8 ≠ 0 := by decide

/-- Each range at its ends, with DMAX = KMAX = 256. -/
theorem witness_UnmappedOffsetGetsBusErr :
    UnmappedOffset Config.default 0x0018 ∧ UnmappedOffset Config.default 0x001F ∧
    UnmappedOffset Config.default 0x0098 ∧ UnmappedOffset Config.default 0x0FFF ∧
    UnmappedOffset Config.default 0x1800 ∧ UnmappedOffset Config.default 0x1FFF ∧
    UnmappedOffset Config.default 0x2800 ∧ UnmappedOffset Config.default 0x2FFF ∧
    UnmappedOffset Config.default 0x3000 ∧ UnmappedOffset Config.default 0x3FFF := by
  refine ⟨?_, ?_, ?_, ?_, ?_, ?_, ?_, ?_, ?_, ?_⟩ <;> unfold UnmappedOffset <;> decide

/-- The least and the largest memories, an aligned offset of each window, and a tail that is not empty. -/
theorem witness_RegisterMapIsExact :
    Config.wf { Config.default with dmax := 1, kmax := 512 } ∧ Config.wf { Config.default with dmax := 512, kmax := 1 } ∧
    (Target.data 511).offset % 8 = 0 ∧ (Target.x 7).offset % 8 = 0 ∧
    (0x1000 + 8 * 1 ≤ 0x1008 ∧ 0x1008 ≤ 0x1FFF) ∧ (0x2000 + 8 * 1 ≤ 0x2FF8 ∧ 0x2FF8 ≤ 0x2FFF) := by decide

theorem witness_CmdWriteWhileIdleIssues :
    ∃ s : State, s.status.busy = false ∧ s.irq = true :=
  ⟨{ State.reset with ie := true, status := { Status.reset with done := true } }, rfl, rfl⟩

/-- Busy, with the last element of each memory mapped and the one after it not. -/
theorem witness_WritesWhileBusyAreDropped :
    inFlight.cfg.wf ∧ inFlight.status.busy = true ∧ Mapped inFlight.cfg (.data 255) ∧ Mapped inFlight.cfg (.key 255) ∧
      Mapped inFlight.cfg .cmd ∧ ¬Mapped inFlight.cfg (.data 256) ∧ ¬Mapped inFlight.cfg (.key 256) := by
  unfold Mapped
  decide

/-- Busy, with a written KEY element, and the last one unwritten. -/
theorem witness_ReadsWhileBusyAreFreeOrCurrent :
    ∃ s : State, s.cfg.wf ∧ s.status.busy = true ∧ Mapped s.cfg (.data 255) ∧ 255 < s.cfg.kmax ∧ s.keyAt 0 = some 3 ∧
      s.keyAt 255 = none :=
  ⟨(putKey [3] State.reset).issue 0, by decide, rfl, by unfold Mapped; decide, by decide, by decide +kernel⟩

theorem witness_AcceptedWriteIsReadBack :
    State.reset.cfg.wf ∧ State.reset.status.busy = false ∧ Mapped State.reset.cfg (.data 255) ∧ Storable (.data 255) ∧
      Mapped State.reset.cfg (.key 255) ∧ Storable (.key 255) ∧ Storable (.x 7) ∧ Storable .n ∧ Storable .dlen := by
  unfold Mapped Storable
  decide

/-- The same, with another target and bytes outside the element written. -/
theorem witness_AcceptedWriteChangesOnlyItsTarget :
    State.reset.cfg.wf ∧ State.reset.status.busy = false ∧ Mapped State.reset.cfg (.data 1) ∧ Storable (.data 1) ∧
      Mapped State.reset.cfg (.data 0) ∧ Target.data 0 ≠ .data 1 ∧ ¬(dataAddr 1 ≤ 0x1007) ∧ ¬(0x1010 < dataAddr 1 + 8) := by
  unfold Mapped Storable
  decide

theorem witness_WriteToNOrAfaClearsAfv :
    configured.status.busy = false ∧ configured.status.afv = true ∧ (configured.issue 0).status.busy = true := by decide

theorem witness_StatusReadHasTheFieldLayout : ∃ k : Nat, 10 ≤ k ∧ k < 64 := ⟨63, by decide⟩

/-- The first and the last element of each memory. -/
theorem witness_HostReadOfUnwrittenElementFaults :
    State.reset.cfg.wf ∧ State.reset.status.busy = false ∧ 255 < State.reset.cfg.dmax ∧ 255 < State.reset.cfg.kmax ∧
      State.reset.dataAt 0 = none ∧ State.reset.dataAt 255 = none ∧ State.reset.keyAt 0 = none ∧
      State.reset.keyAt 255 = none := by decide

/-- A read that answers while idle, and one that draws while busy. -/
theorem witness_HostReadChangesNothing :
    (∃ t, busAccess (.read 0x0060 8) configured = .next t) ∧ configured.status.busy = false ∧
      ∃ t, busAccess (.read 0x1000 8) inFlight = .next t ∧ t.draws = 1 := ⟨⟨_, rfl⟩, rfl, _, rfl, rfl⟩

/-- `irq` rises at a completion, and by setting IE while DONE = 1. -/
theorem witness_IrqRisesOnlyAtCompletionOrEnable :
    (∃ s t : State, step s = .next t ∧ s.irq = false ∧ t.irq = true ∧ s.status.busy = true) ∧
    ∃ s t : State, step s = .next t ∧ s.irq = false ∧ t.irq = true ∧ s.status.busy = false :=
  ⟨⟨{ inFlight with ie := true }, _, rfl, rfl, rfl, rfl⟩,
    { State.reset with status := { Status.reset with done := true }, agenda := [.bus (writeOf .ctrl 1)] }, _,
    rfl, rfl, rfl, rfl⟩

/-- An issue, a completion and a reset. -/
theorem witness_BusyChangesOnlyByIssueCompletionOrReset :
    (∃ s t : State, step s = .next t ∧ s.status.busy = false ∧ t.status.busy = true) ∧
    (∃ s t : State, step s = .next t ∧ s.status.busy = true ∧ t.status.busy = false ∧ t.rst = false) ∧
    ∃ s t : State, step s = .next t ∧ s.status.busy = true ∧ t.status.busy = false ∧ t.rst = true :=
  ⟨⟨{ State.reset with agenda := [.bus (writeOf .cmd 0)] }, _, rfl, rfl, rfl⟩, ⟨inFlight, _, rfl, rfl, rfl, rfl⟩,
    { inFlight with agenda := [.pin true] }, _, rfl, rfl, rfl, rfl⟩

/-- A dropped write to X0 while MOD is in flight. -/
theorem witness_InputsStandStillWhileBusy :
    ∃ s t : State, step s = .next t ∧ s.status.busy = true ∧ t.status.busy = true ∧ t.status.bovr = true :=
  ⟨{ inFlight with agenda := [.bus (writeOf (.x 0) 99)] }, _, rfl, rfl, rfl, rfl⟩

/-- A success, an error, and AFCFG. -/
theorem witness_EveryCommandEndsAndWritesNoOtherState :
    (∃ t, exec (.mod 2 0 1) inFlight = .next t ∧ t.status.err = false) ∧
    (∃ t, exec .afenc (affine 5) = .next t ∧ t.status.err = true) ∧ Instr.mod 2 0 1 ≠ .afcfg ∧
    Instr.mod 2 0 1 ∉ sequenceCommands ∧ ∃ t, exec .afcfg (affine 5) = .next t :=
  ⟨⟨_, rfl, rfl⟩, ⟨_, rfl, rfl⟩, by decide, by decide, _, rfl⟩

/-- An erroring command of another kind, and AFCFG. -/
theorem witness_ErroringCommandWritesOnlyStatus :
    (∃ t, exec (.gcd 0 1 2) State.reset = .next t ∧ t.status.err = true ∧ Instr.gcd 0 1 2 ≠ .afcfg) ∧
    ∃ t, exec .afcfg { configured with afa := 13 } = .next t ∧ t.status.err = true :=
  ⟨⟨_, rfl, rfl, by decide⟩, _, rfl, rfl⟩

/-- The first byte of KEY, and a command that completes. -/
theorem witness_NoCommandWritesKey :
    shiftInFlight.cfg.wf ∧ (∃ t, exec .shenc shiftInFlight = .next t) ∧ keyAddr 0 ≤ 0x2000 := ⟨by decide, ⟨_, rfl⟩, by decide⟩

/-- Two memories that differ in KEY[0] alone. -/
theorem witness_OnlyPolyalphabeticCommandsReadKey :
    Instr.shenc ≠ .paenc ∧ Instr.shenc ≠ .padec ∧ shiftInFlight.cfg.wf ∧
      (∀ a, a < keyAddr 0 →
        Memory.read (Memory.writeWord shiftInFlight.mem (keyAddr 0) 9) a = Memory.read shiftInFlight.mem a) ∧
      ∃ t, exec .shenc shiftInFlight = .next t := by
  refine ⟨by decide, by decide, by decide, ?_, _, rfl⟩
  intro a ha
  rw [Memory.read_writeWord, if_neg (by omega)]

theorem witness_NumberTheoryIgnoresCipherState :
    numberTheoryCommand (.mod 2 0 1) = true ∧ ∃ t, exec (.mod 2 0 1) inFlight = .next t := ⟨rfl, _, rfl⟩

theorem witness_CipherCommandsIgnoreOperandRegisters :
    numberTheoryCommand .shenc = false ∧ ∃ t, exec .shenc shiftInFlight = .next t := ⟨rfl, _, rfl⟩

/-- A host read of an unwritten element, a completion that reads one, and a faulted state with a reset to come and
without. -/
theorem witness_StepStopsOnlyOnUnwrittenElements :
    (∃ s t : State, s.fault = none ∧ s.status.busy = false ∧ step s = .next t ∧ t.fault = some .unwrittenRead) ∧
    (∃ s t : State, s.fault = none ∧ s.status.busy = true ∧ step s = .next t ∧ t.fault = some .unwrittenRead) ∧
    (∃ s : State, s.fault = some .unwrittenRead ∧ Event.pin true ∈ s.agenda) ∧
    ∃ s : State, s.fault = some .unwrittenRead ∧ Event.pin true ∉ s.agenda :=
  ⟨⟨{ State.reset with agenda := [.bus (.read 0x2000 8)] }, _, rfl, rfl, rfl, rfl⟩,
    ⟨{ shiftInFlight with dlen := 2 }, _, rfl, rfl, rfl, rfl⟩,
    ⟨{ State.reset with fault := some .unwrittenRead, agenda := [.engine, .pin true] }, rfl, by decide⟩,
    { State.reset with fault := some .unwrittenRead }, rfl, by decide⟩

theorem witness_CommandInFlightEnds :
    ∃ s : State, s.fault = none ∧ s.status.busy = true ∧ s.rst = false ∧ s.agenda = [.bus (readOf .n), .engine] :=
  ⟨{ inFlight with agenda := [.bus (readOf .n), .engine] }, rfl, rfl, rfl, rfl⟩

/-- The word 0, and another word with OP 0. -/
theorem witness_NopCompletesAndWritesNothing : opField 0 = 0 ∧ opField 0x100 = 0 ∧ (0x100 : Word) ≠ 0 := by decide

/-- b = 1, the least modulus, with the least a; and b = 0. -/
theorem witness_ModWritesTheCanonicalResidue :
    0 < (withX #v[bottom, 1, 0, 0, 0, 0, 0, 0]).xInt 1 ∧ State.reset.xInt 1 ≤ 0 := by decide

theorem witness_GcdWritesTheGreatestCommonDivisor :
    0 < (withX #v[1, top, 0, 0, 0, 0, 0, 0]).xInt 0 ∧ 0 < (withX #v[1, top, 0, 0, 0, 0, 0, 0]).xInt 1 ∧
      State.reset.xInt 0 ≤ 0 := by decide

/-- RD = 5 and RD = 6, the ends of the two ranges, with positive operands and without. -/
theorem witness_ExtgcdWritesGcdAndBezoutPair :
    (5 : RegIdx).val ≤ 5 ∧ 5 < (6 : RegIdx).val ∧ 0 < (withX #v[1, top, 0, 0, 0, 0, 0, 0]).xInt 0 ∧
      0 < (withX #v[1, top, 0, 0, 0, 0, 0, 0]).xInt 1 ∧ State.reset.xInt 1 ≤ 0 := by decide

theorem witness_ExtgcdAgreesWithTheRecursion :
    (5 : RegIdx).val ≤ 5 ∧ 0 < (withX #v[240, 46, 0, 0, 0, 0, 0, 0]).xInt 0 ∧
      0 < (withX #v[240, 46, 0, 0, 0, 0, 0, 0]).xInt 1 := by decide

/-- a = b, b dividing a, and a dividing b with a < b. -/
theorem witness_ExtgcdCornerCases :
    (∃ s : State, 0 < s.xInt 0 ∧ 0 < s.xInt 1 ∧ s.xInt 1 ∣ s.xInt 0) ∧
    ∃ s : State, 0 < s.xInt 0 ∧ 0 < s.xInt 1 ∧ s.xInt 0 < s.xInt 1 ∧ s.xInt 0 ∣ s.xInt 1 :=
  ⟨⟨withX #v[17, 17, 0, 0, 0, 0, 0, 0], by decide⟩, withX #v[4, 12, 0, 0, 0, 0, 0, 0], by decide⟩

/-- n = 1, where every k has the inverse 0; gcd = 2; and k = 0. -/
theorem witness_ModinvWritesTheInverse :
    (∃ s : State, 0 < s.xInt 0 ∧ 0 < s.xInt 1 ∧ s.xInt 1 = 1 ∧ Int.gcd (s.xInt 0) (s.xInt 1) = 1) ∧
    (∃ s : State, 0 < s.xInt 0 ∧ 0 < s.xInt 1 ∧ Int.gcd (s.xInt 0) (s.xInt 1) ≠ 1) ∧ State.reset.xInt 0 ≤ 0 :=
  ⟨⟨withX #v[3, 1, 0, 0, 0, 0, 0, 0], by decide⟩, ⟨withX #v[4, 26, 0, 0, 0, 0, 0, 0], by decide⟩, by decide⟩

/-- m = 1, the least modulus; and e = 0. -/
theorem witness_ModpowWritesThePower :
    (∃ s : State, 0 < s.xInt 0 ∧ 0 < s.xInt 1 ∧ 0 < s.xInt 2 ∧ s.xInt 2 = 1) ∧ State.reset.xInt 1 ≤ 0 :=
  ⟨⟨withX #v[7, 1, 1, 0, 0, 0, 0, 0], by decide⟩, by decide⟩

/-- Each check at its boundary: N = 0; DLEN = 257; KLEN = 0; KLEN = 257; AFV = 0. -/
theorem witness_SequenceCommandsCheckInOrder :
    sint State.reset.n ≤ 0 ∧
    (0 < sint (shift 0).n ∧ (shift 0).cfg.dmax < uint { shift 0 with dlen := 257 }.dlen) ∧
    ((shift 0).sequenceReady ∧ uint (shift 0).klen = 0) ∧
    ({ shift 0 with dlen := 256 }.sequenceReady ∧ (shift 0).cfg.kmax < uint { shift 0 with klen := 257 }.klen) ∧
    ((affine 5).sequenceReady ∧ (affine 5).status.afv = false) := by decide

/-- DATA = [0, 99], KEY = [3, 1, 4]: more key than data. -/
def polyReady : State := putKey [3, 1, 4] (putData [0, 99] (shift 5))

theorem polyReady_ready :
    polyReady.cfg.wf ∧ polyReady.sequenceReady ∧ polyReady.keyReady ∧ polyReady.dataWritten ∧ polyReady.keyWritten := by
  decide +kernel

/-- Everything written, DATA unwritten, KEY unwritten, and DLEN = 0. -/
theorem witness_SequenceCommandsReadExactlyTheirElements :
    (polyReady.sequenceReady ∧ polyReady.keyReady ∧ polyReady.dataWritten ∧ polyReady.keyWritten) ∧
    ¬{ polyReady with dlen := 3 }.dataWritten ∧ ¬{ polyReady with mem := [] }.keyWritten ∧
    uint { polyReady with dlen := 0 }.dlen = 0 ∧ configured.status.afv = true ∧ configured.sequenceReady := by
  decide +kernel

theorem witness_ShencShiftsEachElement : polyReady.sequenceReady ∧ polyReady.dataWritten := by decide +kernel

theorem witness_ShdecShiftsEachElementBack : polyReady.sequenceReady ∧ polyReady.dataWritten := by decide +kernel

/-- AFA = 31 above N = 26; N = 0; AFA = 0; gcd = 13. -/
theorem witness_AfcfgCachesTheInverse :
    (0 < sint (affine 31).n ∧ 0 < sint (affine 31).afa ∧ Int.gcd (sint (affine 31).afa) (sint (affine 31).n) = 1) ∧
    sint State.reset.n ≤ 0 ∧ sint (affine 0).afa ≤ 0 ∧
    Int.gcd (sint (affine 13).afa) (sint (affine 13).n) ≠ 1 := by decide

/-- Configured with an element out of [0, N), and not configured. -/
theorem witness_AfencTransformsEveryElement :
    ((putData [26, -1] configured).sequenceReady ∧ (putData [26, -1] configured).status.afv = true ∧
      (putData [26, -1] configured).dataWritten) ∧ (affine 5).sequenceReady ∧ (affine 5).status.afv = false := by
  decide +kernel

theorem witness_AfdecTransformsEveryElement :
    ((putData [7, 2, 1] configured).sequenceReady ∧ (putData [7, 2, 1] configured).status.afv = true ∧
      (putData [7, 2, 1] configured).dataWritten) ∧ (affine 5).sequenceReady ∧ (affine 5).status.afv = false := by
  decide +kernel

theorem witness_PaencAddsTheKeyStream :
    polyReady.sequenceReady ∧ polyReady.keyReady ∧ polyReady.dataWritten ∧ polyReady.keyWritten := by decide +kernel

theorem witness_PadecSubtractsTheKeyStream :
    polyReady.sequenceReady ∧ polyReady.keyReady ∧ polyReady.dataWritten ∧ polyReady.keyWritten := by decide +kernel

theorem witness_PaencWithOneKeyIsShenc :
    ∃ s : State, s.sequenceReady ∧ uint s.klen = 1 ∧ s.keyReady ∧ s.dataWritten ∧ s.keyAt 0 = some 5 :=
  ⟨putKey [5] (putData [1, 2, 3] (shift 0)), by decide +kernel⟩

theorem witness_ShiftRoundTripRestoresData : polyReady.sequenceReady ∧ polyReady.dataWritten := by decide +kernel

theorem witness_AffineRoundTripReducesData :
    (putData [0, 30] (affine 5)).sequenceReady ∧ 0 < sint (putData [0, 30] (affine 5)).afa ∧
      Int.gcd (sint (putData [0, 30] (affine 5)).afa) (sint (putData [0, 30] (affine 5)).n) = 1 ∧
      (putData [0, 30] (affine 5)).dataWritten := by decide +kernel

theorem witness_PolyalphabeticRoundTripRestoresData :
    polyReady.cfg.wf ∧ polyReady.sequenceReady ∧ polyReady.keyReady ∧ polyReady.dataWritten ∧ polyReady.keyWritten :=
  polyReady_ready

end Sys2Proof.Tests
end

section
/-! PROOFS. One step of the machine, read off its agenda, and the obligation that it serves the oldest event
(00_scope.md R14, R58; 60_exceptions.md R117; 70_reset_and_hazards.md R119). -/

namespace Sys2Proof.Machine

/-! ### The step by its event -/

theorem step_of_no_fault {s : State} (hf : s.fault = none) : step s = ordinaryTurn s := by
  rw [step, hf]

/-- With no fault recorded and an event on the agenda, the step is that event, and a fault of it recorded. -/
theorem step_of_event {s : State} {e : Event} {rest : List Event} (hf : s.fault = none) (ha : s.agenda = e :: rest) :
    step s = recordFault { s with agenda := rest } (runEvent e { s with agenda := rest }) := by
  rw [step_of_no_fault hf, ordinaryTurn, ha, List.tail_cons, nextEvent]

/-- With no fault recorded and an empty agenda, the step is a turn of the ENGINE, and a fault of it recorded. -/
theorem step_of_empty_agenda {s : State} (hf : s.fault = none) (ha : s.agenda = []) :
    step s = recordFault s (engineTurn s) := by
  have hs : { s with agenda := s.agenda.tail } = s := by rw [ha, List.tail_nil, ← ha]
  rw [step_of_no_fault hf, ordinaryTurn, hs, ha, nextEvent, runEvent]

/-- A step that records what an outcome o gives is the outcome o in the sense of StepIs. -/
theorem StepIs.of_recordFault {s u : State} {o : Host.Outcome State Fault Refusal} (h : step s = recordFault u o) :
    StepIs s u o := by
  refine ⟨?_, ?_, ?_⟩ <;> rintro _ rfl <;> exact h

theorem engineTurn_idle {s : State} (hb : s.status.busy = false) : engineTurn s = .next s := by
  simp [engineTurn, hb]

theorem requestTurn_of_rst_low {s : State} (r : Request) (hr : s.rst = false) : requestTurn r s = busAccess r s := by
  simp [requestTurn, hr]

/-- Settles O7: each clause is the step by its event, and what that event does in the state without it. -/
theorem stepServesTheOldestEvent : Obligations.StepServesTheOldestEvent := by
  intro s hf
  refine ⟨?request, ?idle, ?engine, ?release⟩
  case request =>
    intro r rest ha hr
    apply StepIs.of_recordFault
    rw [step_of_event hf ha, runEvent, requestTurn_of_rst_low (s := { s with agenda := rest }) r hr]
  case idle =>
    intro ha hb
    rw [step_of_empty_agenda hf ha, engineTurn_idle hb, recordFault]
  case engine =>
    intro rest ha hb
    rw [step_of_event hf ha, runEvent, engineTurn_idle (s := { s with agenda := rest }) hb, recordFault]
  case release =>
    intro rest ha
    rw [step_of_event hf ha]
    rfl

end Sys2Proof.Machine
end

section
/-! PROOFS. What one command can do to the state, said once for all thirteen (60_exceptions.md R103, R104). -/

namespace Sys2Proof.Machine

/-- What a command that answers a next state has done: failed with an error code, with AFV as before or cleared by
AFCFG, written operand registers, transformed DATA, or configured the affine cipher. -/
inductive CommandEffect (s : State) : State → Prop
  /-- R104: only STATUS differs. -/
  | failed (e : ErrCode) (he : e ≠ .noError) : CommandEffect s { s with status := s.status.failed e }
  /-- R92: AFCFG failed, which clears AFV. -/
  | unconfigured (e : ErrCode) (he : e ≠ .noError) :
      CommandEffect s { s with status := (s.status.withAfv false).failed e }
  /-- R78 to R82, R100: only operand registers and STATUS differ. -/
  | wroteX (x : Vector Word 8) : CommandEffect s { s with x := x, status := s.status.succeeded }
  /-- R83: DATA transformed in place. -/
  | transformed {t : State} (f : Nat → Int → Int) (h : transformData f s = .next t) : CommandEffect s t
  /-- R92: AFAINV and AFV written. -/
  | configured (r : Int) (hn : 0 < sint s.n) (ha : 0 < sint s.afa) (hr : invZ (sint s.afa) (sint s.n) = some r) :
      CommandEffect s { s with afainv := enc r, status := (s.status.withAfv true).succeeded }

theorem CommandEffect.of_raise {s t : State} {e : ErrCode} (he : e ≠ .noError) (h : raise e s = .next t) :
    CommandEffect s t := by
  rw [raise_eq_next] at h
  subst h
  exact .failed e he

theorem CommandEffect.of_raise_setAfv {s t : State} {e : ErrCode} (he : e ≠ .noError)
    (h : raise e (s.setAfv false) = .next t) : CommandEffect s t := by
  rw [raise_eq_next] at h
  subst h
  exact .unconfigured e he

theorem CommandEffect.of_complete_writeX {s t : State} {rd : RegIdx} {w : Word}
    (h : complete (s.writeX rd w) = .next t) : CommandEffect s t := by
  rw [complete_eq_next] at h
  subst h
  exact .wroteX _

theorem keyCheck_ne_noError (s : State) : keyCheck s ≠ some .noError := by
  unfold keyCheck
  split
  · decide
  · split <;> decide

theorem configuredCheck_ne_noError (s : State) : configuredCheck s ≠ some .noError := by
  unfold configuredCheck
  split <;> decide

/-- A sequence command's checks fail with a real error code when its own checks do. -/
theorem sequenceCheck_ne_noError {s : State} {own : Option ErrCode} (h : own ≠ some .noError) :
    sequenceCheck s own ≠ some .noError := by
  unfold sequenceCheck
  split
  · decide
  · split
    · decide
    · exact h

/-! ### The number-theory commands -/

theorem execMod_effect {rd rs1 rs2 : RegIdx} {s t : State} (h : execMod rd rs1 rs2 s = .next t) :
    CommandEffect s t := by
  unfold execMod at h
  split at h
  · exact .of_raise (by decide) h
  · exact .of_complete_writeX h

theorem execGcd_effect {rd rs1 rs2 : RegIdx} {s t : State} (h : execGcd rd rs1 rs2 s = .next t) :
    CommandEffect s t := by
  unfold execGcd at h
  split at h
  · exact .of_raise (by decide) h
  · exact .of_complete_writeX h

theorem execExtgcd_effect {rd rs1 rs2 : RegIdx} {s t : State} (h : execExtgcd rd rs1 rs2 s = .next t) :
    CommandEffect s t := by
  unfold execExtgcd at h
  split at h
  · exact .of_raise (by decide) h
  · split at h
    · exact .of_raise (by decide) h
    · rw [complete_eq_next] at h
      subst h
      exact .wroteX _

theorem execModinv_effect {rd rs1 rs2 : RegIdx} {s t : State} (h : execModinv rd rs1 rs2 s = .next t) :
    CommandEffect s t := by
  unfold execModinv at h
  split at h
  · exact .of_raise (by decide) h
  · split at h
    · exact .of_raise (by decide) h
    · exact .of_complete_writeX h

theorem execModpow_effect {rd rs1 rs2 rs3 : RegIdx} {s t : State} (h : execModpow rd rs1 rs2 rs3 s = .next t) :
    CommandEffect s t := by
  unfold execModpow at h
  split at h
  · exact .of_raise (by decide) h
  · exact .of_complete_writeX h

theorem execNop_effect {s t : State} (h : execNop s = .next t) : CommandEffect s t := by
  rw [execNop, complete_eq_next] at h
  subst h
  exact .wroteX s.x

/-! ### The cipher commands -/

theorem execAfcfg_effect {s t : State} (h : execAfcfg s = .next t) : CommandEffect s t := by
  unfold execAfcfg at h
  split at h
  · exact .of_raise_setAfv (by decide) h
  · split at h
    · exact .of_raise_setAfv (by decide) h
    · split at h
      · exact .of_raise_setAfv (by decide) h
      · rename_i hn ha r hr
        rw [complete_eq_next] at h
        subst h
        exact .configured r (by omega) (by omega) hr

/-- The shape of a sequence command: its checks, then the transformation. -/
theorem CommandEffect.of_checked {s t : State} {own : Option ErrCode} {run : Host.Outcome State Fault Refusal}
    (hown : own ≠ some .noError) (hrun : run = .next t → CommandEffect s t)
    (h : (match sequenceCheck s own with | some e => raise e s | none => run) = .next t) : CommandEffect s t := by
  split at h
  · rename_i e he
    refine .of_raise ?_ h
    rintro rfl
    exact sequenceCheck_ne_noError hown he
  · exact hrun h

/-- The shape of PAENC and PADEC after their checks: the key elements, then the transformation. -/
theorem CommandEffect.of_keyed {s t : State} {f : List Word → Nat → Int → Int}
    (h : (match s.readKeyStream with
      | none => Host.Outcome.fault Fault.unwrittenRead
      | some ks => transformData (f ks) s) = .next t) : CommandEffect s t := by
  split at h
  · cases h
  · exact .transformed _ h

theorem execShenc_effect {s t : State} (h : execShenc s = .next t) : CommandEffect s t :=
  .of_checked (by decide) (.transformed _) h

theorem execShdec_effect {s t : State} (h : execShdec s = .next t) : CommandEffect s t :=
  .of_checked (by decide) (.transformed _) h

theorem execAfenc_effect {s t : State} (h : execAfenc s = .next t) : CommandEffect s t :=
  .of_checked (configuredCheck_ne_noError s) (.transformed _) h

theorem execAfdec_effect {s t : State} (h : execAfdec s = .next t) : CommandEffect s t :=
  .of_checked (configuredCheck_ne_noError s) (.transformed _) h

theorem execPaenc_effect {s t : State} (h : execPaenc s = .next t) : CommandEffect s t :=
  .of_checked (keyCheck_ne_noError s) .of_keyed h

theorem execPadec_effect {s t : State} (h : execPadec s = .next t) : CommandEffect s t :=
  .of_checked (keyCheck_ne_noError s) .of_keyed h

/-- Every command that answers a next state has had one of the five effects. -/
theorem exec_effect {i : Instr} {s t : State} (h : exec i s = .next t) : CommandEffect s t := by
  cases i with
  | nop => exact execNop_effect h
  | mod rd rs1 rs2 => exact execMod_effect h
  | gcd rd rs1 rs2 => exact execGcd_effect h
  | extgcd rd rs1 rs2 => exact execExtgcd_effect h
  | modinv rd rs1 rs2 => exact execModinv_effect h
  | modpow rd rs1 rs2 rs3 => exact execModpow_effect h
  | shenc => exact execShenc_effect h
  | shdec => exact execShdec_effect h
  | afcfg => exact execAfcfg_effect h
  | afenc => exact execAfenc_effect h
  | afdec => exact execAfdec_effect h
  | paenc => exact execPaenc_effect h
  | padec => exact execPadec_effect h

end Sys2Proof.Machine
end

section
/-! PROOFS. The invariant of the machine: it holds at reset, and every step keeps it. The proof goes from the memory
to the commands, the host accesses, the reset pin, the events, and the step. -/

namespace Sys2Proof.Machine

/-! ### Which bytes are listed after a write -/

/-- Every byte of a run that can be read is listed. -/
theorem Memory.read_isSome_of_readBytes {m : Memory} {a n j : Nat} (h : (Memory.readBytes m a n).isSome) (hj : j < n) :
    (Memory.read m (a + j)).isSome := by
  obtain ⟨bs, hbs⟩ := Option.isSome_iff_exists.mp h
  obtain ⟨hlen, hread⟩ := Memory.readBytes_eq_some.mp hbs
  rw [hread j hj, List.getElem?_eq_getElem (by omega)]
  rfl

/-- The bytes of a written element are listed. -/
theorem Memory.read_isSome_of_readWord {m : Memory} {a k : Nat} (h : (Memory.readWord m a).isSome)
    (h1 : a ≤ k) (h2 : k < a + 8) : (Memory.read m k).isSome := by
  have hb : (Memory.readBytes m a 8).isSome := by
    unfold Memory.readWord at h
    split at h
    · cases h
    · rename_i hbs
      rw [hbs]
      rfl
  have := Memory.read_isSome_of_readBytes hb (j := k - a) (by omega)
  rwa [show a + (k - a) = k by omega] at this

/-- Writing an element lists its bytes and no other. -/
theorem Memory.read_writeWord_isSome (m : Memory) (a k : Nat) (w : Word) :
    (Memory.read (Memory.writeWord m a w) k).isSome ↔ (a ≤ k ∧ k < a + 8) ∨ (Memory.read m k).isSome := by
  rw [Memory.read_writeWord]
  split
  · rename_i hk
    have hl : k - a < (lanes w).length := by rw [lanes_length]; omega
    simp [List.getElem?_eq_getElem hl, hk]
  · rename_i hk
    simp [hk]

theorem Memory.inWindows_writeWord {c : Config} {m : Memory} {a : Nat} (w : Word) (h : Memory.inWindows c m)
    (ha : ∀ k, a ≤ k → k < a + 8 → isElementByte c k) : Memory.inWindows c (Memory.writeWord m a w) := by
  intro k hk
  rcases (Memory.read_writeWord_isSome m a k w).mp hk with ⟨h1, h2⟩ | hm
  · exact ha k h1 h2
  · exact h k hm

/-- A write of a whole aligned element keeps every element whole or unwritten. -/
theorem Memory.wholeElems_writeWord {m : Memory} {a : Nat} (w : Word) (h : Memory.wholeElems m) (ha : a % 8 = 0) :
    Memory.wholeElems (Memory.writeWord m a w) := by
  intro j k hjk
  have hcell : (a ≤ j ∧ j < a + 8) ↔ (a ≤ k ∧ k < a + 8) := by omega
  rw [Memory.read_writeWord_isSome, Memory.read_writeWord_isSome, hcell, h j k hjk]

theorem Memory.inWindows_congr {c : Config} {m m' : Memory} (h : Memory.inWindows c m)
    (hl : ∀ a, (Memory.read m' a).isSome ↔ (Memory.read m a).isSome) : Memory.inWindows c m' :=
  fun a ha => h a ((hl a).mp ha)

theorem Memory.wholeElems_congr {m m' : Memory} (h : Memory.wholeElems m)
    (hl : ∀ a, (Memory.read m' a).isSome ↔ (Memory.read m a).isSome) : Memory.wholeElems m' := by
  intro a b hab
  rw [hl, hl, h a b hab]

/-- Transforming DATA in place lists no byte anew and unlists none: it rewrites elements that were written. -/
theorem transformData_listed {f : Nat → Int → Int} {s t : State} (h : transformData f s = .next t) (a : Nat) :
    (Memory.read t.mem a).isSome ↔ (Memory.read s.mem a).isSome := by
  obtain ⟨_, helem, hout, hin, _⟩ := transformData_eq_next h
  by_cases ha : a < dataAddr 0 ∨ dataAddr (uint s.dlen) ≤ a
  · rw [hout a ha]
  · obtain ⟨h1, h2⟩ := not_or.mp ha
    refine iff_of_true (hin a (by omega) (by omega)) ?_
    simp only [dataAddr] at h1 h2
    obtain ⟨w, hw, _⟩ := helem ((a - 0x1000) / 8) (by omega)
    refine Memory.read_isSome_of_readWord (a := dataAddr ((a - 0x1000) / 8)) ?_ ?_ ?_
    · exact Option.isSome_iff_exists.mpr ⟨w, hw⟩
    · simp only [dataAddr]; omega
    · simp only [dataAddr]; omega

/-! ### STATUS and the cached inverse -/

/-- Bit 0 of STATUS is BUSY (R19). -/
theorem Status.word_bit_busy (st : Status) : st.word.getLsbD 0 = st.busy :=
  BitVec.getLsbD_append.trans (by simp)

theorem Status.word_reset : Status.reset.word = 0 := by decide

theorem Status.coherent_reset : Status.reset.coherent := by decide

theorem Status.coherent_issued (st : Status) : st.issued.coherent := by simp [Status.coherent]

theorem Status.coherent_succeeded (st : Status) : st.succeeded.coherent := by simp [Status.coherent]

theorem Status.coherent_failed (st : Status) {e : ErrCode} (he : e ≠ .noError) : (st.failed e).coherent := by
  simp [Status.coherent, he]

theorem Status.coherent_cleared {st : Status} (v : Word) (h : st.coherent) : (st.cleared v).coherent := by
  obtain ⟨hbusy, herr⟩ := h
  refine ⟨fun hb => ?_, herr⟩
  obtain ⟨hd, he⟩ := hbusy hb
  simp [hd, he]

/-- The cached inverse depends on AFV, N, AFA and AFAINV alone. -/
theorem State.inverseCached_congr {s t : State} (h : s.inverseCached) (hv : t.status.afv = s.status.afv)
    (hn : t.n = s.n) (ha : t.afa = s.afa) (hi : t.afainv = s.afainv) : t.inverseCached := by
  unfold State.inverseCached
  rw [hv, hn, ha, hi]
  exact h

theorem State.inverseCached_of_afv_clear {s : State} (h : s.status.afv = false) : s.inverseCached := by
  intro hv
  rw [h] at hv
  cases hv

/-- What AFCFG caches is the inverse of AFA modulo N (R92, R23). -/
theorem State.inverseCached_of_invZ {s : State} {r : Int} (hn : 0 < sint s.n) (ha : 0 < sint s.afa)
    (hr : invZ (sint s.afa) (sint s.n) = some r) (hi : s.afainv = enc r) : s.inverseCached := by
  intro _
  obtain ⟨h0, hlt, hmul⟩ := invZ_spec ha hn hr
  have hup := sint_upper s.n
  have hsint : sint s.afainv = r := by rw [hi]; exact sint_enc (by omega) (by omega)
  rw [hsint]
  exact ⟨hn, ha, h0, hlt, hmul⟩

/-! ### Changes that keep the invariant while `rst` is low -/

/-- A block held in reset has no command in flight. -/
theorem State.Inv.rst_low_of_busy {s : State} (h : s.Inv) (hb : s.status.busy = true) : s.rst = false := by
  cases hr : s.rst with
  | false => rfl
  | true =>
    obtain ⟨⟨_, hword, _⟩, _⟩ := h.reset hr
    have hbit := s.status.word_bit_busy
    rw [hword, hb] at hbit
    cases hbit

/-- A change that leaves parameters and memory alone keeps the invariant when it keeps the clauses on STATUS and on
the cached inverse. -/
theorem State.Inv.of_frame {s t : State} (h : s.Inv) (hc : t.cfg = s.cfg) (hm : t.mem = s.mem) (hr : t.rst = false)
    (hs : t.status.coherent) (hi : t.inverseCached) : t.Inv where
  cfg := hc ▸ h.cfg
  canonical := hm ▸ h.canonical
  inWindows := hc ▸ hm ▸ h.inWindows
  whole := hm ▸ h.whole
  status := hs
  inverse := hi
  reset := fun hr' => absurd (hr.symm.trans hr') (by decide)

/-- Every effect of a command keeps the invariant. -/
theorem CommandEffect.keeps_inv {s t : State} (he : CommandEffect s t) (h : s.Inv) (hr : s.rst = false) : t.Inv := by
  cases he with
  | failed e he =>
    exact h.of_frame rfl rfl hr (Status.coherent_failed _ he) (State.inverseCached_congr h.inverse rfl rfl rfl rfl)
  | unconfigured e he =>
    exact h.of_frame rfl rfl hr (Status.coherent_failed _ he) (State.inverseCached_of_afv_clear rfl)
  | wroteX x =>
    exact h.of_frame rfl rfl hr (Status.coherent_succeeded _) (State.inverseCached_congr h.inverse rfl rfl rfl rfl)
  | configured r hn ha hinv =>
    exact h.of_frame rfl rfl hr (Status.coherent_succeeded _) (State.inverseCached_of_invZ hn ha hinv rfl)
  | transformed f ht =>
    obtain ⟨hframe, _, _, _, hwf⟩ := transformData_eq_next ht
    have hlisted := transformData_listed ht
    generalize t.mem = m at hframe hwf hlisted
    subst hframe
    exact {
      cfg := h.cfg
      canonical := hwf h.canonical
      inWindows := Memory.inWindows_congr h.inWindows hlisted
      whole := Memory.wholeElems_congr h.whole hlisted
      status := Status.coherent_succeeded _
      inverse := State.inverseCached_congr h.inverse rfl rfl rfl rfl
      reset := fun hr' => absurd (hr.symm.trans hr') (by decide) }

/-- A write of one element of DATA or KEY keeps the invariant. -/
theorem State.Inv.writeElem {s : State} {a : Nat} (w : Word) (h : s.Inv) (hr : s.rst = false) (ha : a % 8 = 0)
    (hw : ∀ k, a ≤ k → k < a + 8 → isElementByte s.cfg k) :
    State.Inv { s with mem := Memory.writeWord s.mem a w } where
  cfg := h.cfg
  canonical := Memory.wf_writeWord a w h.canonical
  inWindows := Memory.inWindows_writeWord w h.inWindows hw
  whole := Memory.wholeElems_writeWord w h.whole ha
  status := h.status
  inverse := h.inverse
  reset := fun hr' => absurd (hr.symm.trans hr') (by decide)

/-! ### Host accesses -/

theorem targetAt_mapped {c : Config} {a : Nat} {t : Target} (h : targetAt c a = some t) : Mapped c t := by
  unfold targetAt at h
  split at h
  · cases h; trivial
  · split at h
    · split at h
      · cases h; assumption
      · cases h
    · split at h
      · split at h
        · cases h; assumption
        · cases h
      · unfold singleAt at h
        split at h <;> cases h <;> trivial

/-- An accepted host write to a mapped target keeps the invariant (R33, R54). -/
theorem State.Inv.writeTarget {s : State} {t : Target} (v : Word) (h : s.Inv) (hr : s.rst = false)
    (ht : Mapped s.cfg t) : (s.writeTarget v t).Inv := by
  have hcached {u : State} := State.inverseCached_congr (t := u) h.inverse
  cases t with
  | cmd => exact h.of_frame rfl rfl hr (Status.coherent_issued _) (hcached rfl rfl rfl rfl)
  | status => exact h.of_frame rfl rfl hr (Status.coherent_cleared v h.status) (hcached rfl rfl rfl rfl)
  | ctrl => exact h.of_frame rfl rfl hr h.status (hcached rfl rfl rfl rfl)
  | x i => exact h.of_frame rfl rfl hr h.status (hcached rfl rfl rfl rfl)
  | n => exact h.of_frame rfl rfl hr h.status (State.inverseCached_of_afv_clear rfl)
  | shk => exact h.of_frame rfl rfl hr h.status (hcached rfl rfl rfl rfl)
  | afa => exact h.of_frame rfl rfl hr h.status (State.inverseCached_of_afv_clear rfl)
  | afb => exact h.of_frame rfl rfl hr h.status (hcached rfl rfl rfl rfl)
  | afainv => exact h
  | klen => exact h.of_frame rfl rfl hr h.status (hcached rfl rfl rfl rfl)
  | dlen => exact h.of_frame rfl rfl hr h.status (hcached rfl rfl rfl rfl)
  | data i =>
    have hi : i < s.cfg.dmax := ht
    refine h.writeElem v hr (by simp only [dataAddr]; omega) fun k h1 h2 => .inl ?_
    simp only [dataAddr] at h1 h2
    omega
  | key i =>
    have hi : i < s.cfg.kmax := ht
    refine h.writeElem v hr (by simp only [keyAddr]; omega) fun k h1 h2 => .inr ?_
    simp only [keyAddr] at h1 h2
    omega

theorem State.Inv.respond {s : State} (r : Response) (h : s.Inv) : (s.respond r).Inv :=
  ⟨h.cfg, h.canonical, h.inWindows, h.whole, h.status, h.inverse, h.reset⟩

theorem State.Inv.respondFree {s : State} (h : s.Inv) : s.respondFree.Inv :=
  ⟨h.cfg, h.canonical, h.inWindows, h.whole, h.status, h.inverse, h.reset⟩

theorem State.Inv.dropWrite {s : State} (h : s.Inv) (hr : s.rst = false) : s.dropWrite.Inv :=
  h.of_frame rfl rfl hr h.status (State.inverseCached_congr h.inverse rfl rfl rfl rfl)

theorem busAccess_keeps_inv {r : Request} {s t : State} (h : s.Inv) (hr : s.rst = false)
    (ht : busAccess r s = .next t) : t.Inv := by
  rcases busAccess_eq_next ht with rfl | ⟨_, _, _, _, _, _, _, rfl⟩ | ⟨_, _, _, _, rfl⟩ |
    ⟨_, _, _, _, _, _, _, rfl⟩ | ⟨_, bytes, tgt, _, hacc, _, _, rfl⟩
  · exact h.respond _
  · exact h.respond _
  · exact h.respondFree
  · exact (h.dropWrite hr).respond _
  · obtain ⟨_, _, htgt⟩ := checkAccess_eq_some.mp hacc
    exact (h.writeTarget _ hr (targetAt_mapped htgt)).respond _

/-! ### The reset pin -/

theorem ctrlWord_false : ctrlWord false = 0 := by decide

theorem State.holdsResetValues_asserted (s : State) : HoldsResetValues s.asserted := by
  have hx : ∀ i, s.asserted.readX i = 0 := fun i => by simp [State.readX]
  exact ⟨hx, Status.word_reset, ctrlWord_false, rfl, rfl, rfl, rfl, rfl, rfl, rfl, fun _ => rfl, fun _ => rfl, rfl⟩

/-- Asserting `rst` meets the invariant from every state with legal parameters (R119). -/
theorem State.Inv.asserted {s : State} (h : s.cfg.wf) : s.asserted.Inv where
  cfg := h
  canonical := rfl
  inWindows := by intro a ha; cases ha
  whole := fun _ _ _ => Iff.rfl
  status := Status.coherent_reset
  inverse := State.inverseCached_of_afv_clear rfl
  reset := fun _ => ⟨s.holdsResetValues_asserted, rfl⟩

theorem pinEvent_keeps_inv {s : State} (level : Bool) (h : s.Inv) : (pinEvent level s).Inv := by
  cases level with
  | true => exact State.Inv.asserted h.cfg
  | false => exact h.of_frame rfl rfl rfl h.status (State.inverseCached_congr h.inverse rfl rfl rfl rfl)

/-- Settles O11: the reset state is what releasing `rst` leaves of the asserted state. -/
theorem resetStateMeetsTheInvariant : Obligations.ResetStateMeetsTheInvariant :=
  pinEvent_keeps_inv false (State.Inv.asserted (s := State.reset) (by decide))

/-! ### The events of the agenda -/

theorem State.Inv.withAgenda {s : State} (es : List Event) (h : s.Inv) : State.Inv { s with agenda := es } :=
  ⟨h.cfg, h.canonical, h.inWindows, h.whole, h.status, h.inverse, h.reset⟩

theorem State.Inv.withFault {s : State} (f : Fault) (h : s.Inv) (hr : s.rst = false) :
    State.Inv { s with fault := some f } :=
  h.of_frame rfl rfl hr h.status (State.inverseCached_congr h.inverse rfl rfl rfl rfl)

theorem waitForPin_keeps_inv {s : State} (h : s.Inv) : (waitForPin s).Inv := by
  unfold waitForPin
  split
  · exact h
  · exact pinEvent_keeps_inv _ (h.withAgenda _)

theorem engineTurn_keeps_inv {s t : State} (h : s.Inv) (ht : engineTurn s = .next t) : t.Inv := by
  rcases engineTurn_cases s with ⟨_, he⟩ | ⟨hb, _, _, he⟩ | ⟨hb, i, _, he⟩ <;> rw [he] at ht
  · cases ht
    exact h
  · exact (CommandEffect.of_raise (by decide) ht).keeps_inv h (h.rst_low_of_busy hb)
  · exact (exec_effect ht).keeps_inv h (h.rst_low_of_busy hb)

theorem requestTurn_keeps_inv {r : Request} {s t : State} (h : s.Inv) (ht : requestTurn r s = .next t) : t.Inv := by
  unfold requestTurn at ht
  split at ht
  · cases ht
    exact waitForPin_keeps_inv (h.withAgenda _)
  · rename_i hr
    exact busAccess_keeps_inv h (Bool.eq_false_of_not_eq_true hr) ht

theorem runEvent_keeps_inv {e : Event} {s t : State} (h : s.Inv) (ht : runEvent e s = .next t) : t.Inv := by
  cases e with
  | engine => exact engineTurn_keeps_inv h ht
  | bus r => exact requestTurn_keeps_inv h ht
  | pin level =>
    cases ht
    exact pinEvent_keeps_inv level h

/-- No event faults while `rst` is asserted: no command is in flight then, and requests wait. -/
theorem runEvent_fault_rst_low {e : Event} {s : State} {f : Fault} (h : s.Inv) (hf : runEvent e s = .fault f) :
    s.rst = false := by
  cases e with
  | engine =>
    cases hb : s.status.busy with
    | true => exact h.rst_low_of_busy hb
    | false =>
      rw [runEvent, engineTurn_idle hb] at hf
      cases hf
  | bus r =>
    cases hr : s.rst with
    | false => rfl
    | true =>
      simp only [runEvent, requestTurn, hr, if_pos] at hf
      cases hf
  | pin level => cases hf

/-! ### The step -/

theorem ordinaryTurn_keeps_inv {s t : State} (h : s.Inv) (ht : ordinaryTurn s = .next t) : t.Inv := by
  have h' := h.withAgenda s.agenda.tail
  rcases recordFault_eq_next.mp ht with hnext | ⟨f, hfault, rfl⟩
  · exact runEvent_keeps_inv h' hnext
  · exact h'.withFault f (runEvent_fault_rst_low h' hfault)

theorem faultedTurn_keeps_inv {f : Fault} {s t : State} (h : s.Inv) (ht : faultedTurn f s = .next t) : t.Inv := by
  rcases faultedTurn_cases f s with ⟨rest, _, he⟩ | ⟨_, he⟩ <;> rw [he] at ht <;> cases ht
  exact State.Inv.asserted h.cfg

/-- Settles O12: an ordinary turn and a turn of a faulted block both keep the invariant. -/
theorem stepKeepsTheInvariant : Obligations.StepKeepsTheInvariant := by
  intro s t h ht
  rcases Laws.step_cases s with ⟨_, he⟩ | ⟨f, _, he⟩ <;> rw [he] at ht
  · exact ordinaryTurn_keeps_inv h ht
  · exact faultedTurn_keeps_inv h ht

end Sys2Proof.Machine
end

section
/-! PROOFS. Host accesses at the offset of a target of the register map, and the obligations on the fields of STATUS and
CTRL, on accepted writes, and on reads of unwritten elements (20_memory.md R44 to R54; 10_state.md R19, R25, R26, R33,
R42). -/

namespace Sys2Proof.Machine

/-! ### The target at its own offset -/

/-- An 8-byte access at the offset of a single register or operand register names it, whatever the parameters. -/
theorem checkAccess_offset_register (c : Config) {t : Target} (h : t.offset < 0x1000) :
    checkAccess c (BitVec.ofNat 14 t.offset) 8 = some t := by
  cases t with
  | data i => simp only [Target.offset] at h; omega
  | key i => simp only [Target.offset] at h; omega
  | x i =>
    rw [checkAccess_eq_some]
    fin_cases i <;> exact ⟨rfl, rfl, rfl⟩
  | _ => rfl

theorem targetAt_offset_data {c : Config} {i : Nat} (h : i < c.dmax) (hc : c.dmax ≤ 512) :
    targetAt c (Target.data i).offset = some (.data i) := by
  have ho : (Target.data i).offset = 0x1000 + 8 * i := rfl
  generalize (Target.data i).offset = a at ho
  rw [targetAt, if_neg (by omega), if_pos (by omega), show (a - 0x1000) / 8 = i by omega, if_pos h]

theorem targetAt_offset_key {c : Config} {i : Nat} (h : i < c.kmax) (hc : c.kmax ≤ 512) :
    targetAt c (Target.key i).offset = some (.key i) := by
  have ho : (Target.key i).offset = 0x2000 + 8 * i := rfl
  generalize (Target.key i).offset = a at ho
  rw [targetAt, if_neg (by omega), if_neg (by omega), if_pos (by omega), show (a - 0x2000) / 8 = i by omega, if_pos h]

/-- An 8-byte access at the offset of a mapped target names it (R44, R45, R46). -/
theorem checkAccess_offset {c : Config} {t : Target} (hc : c.wf) (ht : Mapped c t) :
    checkAccess c (BitVec.ofNat 14 t.offset) 8 = some t := by
  obtain ⟨_, hd, _, hk⟩ := hc
  cases t with
  | data i =>
    have hi : i < c.dmax := ht
    have ho : (BitVec.ofNat 14 (Target.data i).offset).toNat = (Target.data i).offset := by
      simp only [BitVec.toNat_ofNat, Target.offset]; omega
    rw [checkAccess_eq_some, ho]
    exact ⟨rfl, by simp only [Target.offset]; omega, targetAt_offset_data hi hd⟩
  | key i =>
    have hi : i < c.kmax := ht
    have ho : (BitVec.ofNat 14 (Target.key i).offset).toNat = (Target.key i).offset := by
      simp only [BitVec.toNat_ofNat, Target.offset]; omega
    rw [checkAccess_eq_some, ho]
    exact ⟨rfl, by simp only [Target.offset]; omega, targetAt_offset_key hi hk⟩
  | x i => exact checkAccess_offset_register c (by simp only [Target.offset]; omega)
  | _ => rfl

theorem busAccess_writeOf {s : State} {t : Target} (v : Word)
    (h : checkAccess s.cfg (BitVec.ofNat 14 t.offset) 8 = some t) :
    busAccess (writeOf t v) s = .next (storeTarget t v s) := by
  simp only [busAccess, writeOf, lanes_length, h, ofLanes_lanes]

theorem busAccess_readOf {s : State} {t : Target} (h : checkAccess s.cfg (BitVec.ofNat 14 t.offset) 8 = some t) :
    busAccess (readOf t) s = readTarget t s := by
  simp only [busAccess, readOf, h]

/-- A write that is neither to a read-only target nor dropped has its effect and gets OKAY (R54). -/
theorem storeTarget_accepted {t : Target} {v : Word} {s : State} (hro : t.readOnly = false)
    (hb : (s.status.busy && t.droppedWhileBusy) = false) :
    storeTarget t v s = (s.writeTarget v t).respond .okay := by
  simp [storeTarget, hro, hb]

/-- A write made while BUSY = 1 to a target that drops it sets BOVR alone and gets OKAY (R52). -/
theorem storeTarget_dropped {t : Target} {v : Word} {s : State} (hro : t.readOnly = false)
    (hb : s.status.busy = true) (hd : t.droppedWhileBusy = true) :
    storeTarget t v s = s.dropWrite.respond .okay := by
  simp [storeTarget, hro, hb, hd]

/-- A read that is not drawn, of a target that has a value, gets that value (R53, R54). -/
theorem readTarget_current {t : Target} {s : State} {v : Word} (hd : (s.status.busy && t.drawnWhileBusy) = false)
    (hv : s.targetValue t = some v) : readTarget t s = .next (s.respond (.data (lanes v))) := by
  simp [readTarget, hd, hv]

theorem Storable.readOnly {t : Target} (h : Storable t) : t.readOnly = false := by
  obtain ⟨_, _, _, hafainv⟩ := h
  cases t with
  | afainv => exact absurd rfl hafainv
  | _ => rfl

/-- A write of v to a storable mapped target while BUSY = 0 is accepted. -/
theorem busAccess_writeOf_storable {s : State} {t : Target} (v : Word) (hc : s.cfg.wf) (hm : Mapped s.cfg t)
    (hs : Storable t) (hb : s.status.busy = false) :
    busAccess (writeOf t v) s = .next ((s.writeTarget v t).respond .okay) := by
  rw [busAccess_writeOf v (checkAccess_offset hc hm), storeTarget_accepted hs.readOnly (by simp [hb])]

/-! ### STATUS and CTRL -/

theorem Status.cleared_eq (st : Status) (v : Word) :
    st.cleared v = { st with
      done := if v.getLsbD 1 then false else st.done
      bovr := if v.getLsbD 9 then false else st.bovr } := by
  simp only [Status.cleared]
  cases v.getLsbD 1 <;> cases v.getLsbD 9 <;> simp

/-- Settles O24: STATUS is never dropped, and its write clears the two W1C bits. -/
theorem statusWriteClearsDoneAndBovrOnly : Obligations.StatusWriteClearsDoneAndBovrOnly := by
  intro s v
  rw [busAccess_writeOf v (checkAccess_offset_register _ (by decide)), storeTarget_accepted rfl (Bool.and_false _)]
  simp only [State.writeTarget, State.acknowledge, State.respond, Status.cleared_eq]

theorem ctrlWord_getLsbD_zero (ie : Bool) : (ctrlWord ie).getLsbD 0 = ie := by cases ie <;> rfl

theorem ctrlWord_getLsbD_reserved (ie : Bool) {k : Nat} (hk : 1 ≤ k) : (ctrlWord ie).getLsbD k = false := by
  simp only [ctrlWord, BitVec.getLsbD_append]
  simp [show k ≠ 0 by omega]

/-- Settles O25: CTRL is never dropped and never drawn. -/
theorem ctrlHoldsTheInterruptEnableOnly : Obligations.CtrlHoldsTheInterruptEnableOnly := by
  refine ⟨rfl, fun s v => ⟨(s.writeCtrl v).respond .okay, ?write, rfl, ctrlWord (v.getLsbD 0), ?read,
    ctrlWord_getLsbD_zero _, fun _ => ctrlWord_getLsbD_reserved _⟩⟩
  case write =>
    rw [busAccess_writeOf v (checkAccess_offset_register _ (by decide)), storeTarget_accepted rfl (Bool.and_false _)]
    rfl
  case read =>
    rw [busAccess_readOf (checkAccess_offset_register _ (by decide)), readTarget_current (Bool.and_false _) rfl]
    rfl

/-- STATUS bit by bit: the table of R19. -/
theorem Status.word_getLsbD (st : Status) (k : Nat) :
    st.word.getLsbD k =
      if k = 0 then st.busy else if k = 1 then st.done else if k = 2 then st.err else if k = 3 then false
      else if k < 8 then st.errCode.code.getLsbD (k - 4) else if k = 8 then st.afv else if k = 9 then st.bovr
      else false := by
  simp only [Status.word, BitVec.getLsbD_append, BitVec.getLsbD_ofBool]
  rcases Nat.lt_or_ge k 10 with hk | hk
  · interval_cases k <;> simp
  · obtain ⟨j, rfl⟩ := Nat.exists_eq_add_of_le' hk
    simp

/-- Settles O26: STATUS is never drawn, and its word has the bits of the table. -/
theorem statusReadHasTheFieldLayout : Obligations.StatusReadHasTheFieldLayout := by
  intro s
  have bit := s.status.word_getLsbD
  refine ⟨s.status.word, ?read, bit 0, bit 1, bit 2, bit 3, ?code, bit 8, bit 9, ?reserved⟩
  case read =>
    rw [busAccess_readOf (checkAccess_offset_register _ (by decide)), readTarget_current (Bool.and_false _) rfl]
    rfl
  case code =>
    apply BitVec.eq_of_getLsbD_eq
    intro j hj
    rw [BitVec.getLsbD_extractLsb', bit]
    interval_cases j <;> rfl
  case reserved =>
    intro k hk
    obtain ⟨j, rfl⟩ := Nat.exists_eq_add_of_le' hk
    simp [bit]

/-! ### Accepted writes -/

/-- Settles O23: N and AFA are dropped while BUSY = 1, and their accepted write clears AFV. -/
theorem writeToNOrAfaClearsAfv : Obligations.WriteToNOrAfaClearsAfv := by
  intro s t v ht
  obtain ⟨hoff, hro, hdrop, hafv⟩ : t.offset < 0x1000 ∧ t.readOnly = false ∧ t.droppedWhileBusy = true ∧
      (s.writeTarget v t).status.afv = false := by
    rcases ht with rfl | rfl <;> exact ⟨by decide, rfl, rfl, rfl⟩
  rw [busAccess_writeOf v (checkAccess_offset_register _ hoff)]
  refine ⟨fun hb => ⟨_, rfl, ?_⟩, fun hb => ⟨_, rfl, ?_⟩⟩
  · rw [storeTarget_accepted hro (by simp [hb])]
    exact hafv
  · rw [storeTarget_dropped hro hb hdrop]
    rfl

/-- An accepted write to a register other than STATUS, or to an element, leaves every STATUS flag but AFV, which N and
AFA clear (R33, R54). -/
theorem State.writeTarget_status {s : State} {t : Target} (v : Word) (hs : Storable t) :
    (s.writeTarget v t).status = { s.status with afv := if t = .n ∨ t = .afa then false else s.status.afv } := by
  obtain ⟨hcmd, hstatus, _, _⟩ := hs
  cases t with
  | cmd => exact absurd rfl hcmd
  | status => exact absurd rfl hstatus
  | _ => rfl

/-- An accepted write to a register other than CMD, or to an element, leaves the hidden state and the model's own. -/
theorem State.writeTarget_frame {s : State} {t : Target} (v : Word) (h : t ≠ .cmd) :
    (s.writeTarget v t).inflight = s.inflight ∧ (s.writeTarget v t).rst = s.rst ∧
      (s.writeTarget v t).fault = s.fault ∧ (s.writeTarget v t).cfg = s.cfg ∧
      (s.writeTarget v t).agenda = s.agenda ∧ (s.writeTarget v t).draws = s.draws := by
  cases t with
  | cmd => exact absurd rfl h
  | _ => exact ⟨rfl, rfl, rfl, rfl, rfl, rfl⟩

/-- Of the elements of one window, only the element written reads differently. -/
theorem Memory.readWord_writeWord_elem (m : Memory) (base i j : Nat) (v : Word) :
    Memory.readWord (Memory.writeWord m (base + 8 * i) v) (base + 8 * j) =
      if j = i then some v else Memory.readWord m (base + 8 * j) := by
  split
  · rename_i h
    subst h
    exact Memory.readWord_writeWord_same _ _ _
  · exact Memory.readWord_writeWord_other _ _ (by omega)

/-- After an accepted write, a mapped target reads the value written if it is the target written, else its value before;
STATUS, which N and AFA touch too, is not spoken of (R54). -/
theorem State.targetValue_writeTarget {s : State} {t t' : Target} (v : Word) (hc : s.cfg.wf) (hm : Mapped s.cfg t)
    (hm' : Mapped s.cfg t') (hs : Storable t) (hst : t' ≠ .status) :
    (s.writeTarget v t).targetValue t' = if t' = t then some v else s.targetValue t' := by
  obtain ⟨_, hd, _, _⟩ := hc
  obtain ⟨hcmd, hstatus, hctrl, hafainv⟩ := hs
  cases t
  case cmd => exact absurd rfl hcmd
  case status => exact absurd rfl hstatus
  case ctrl => exact absurd rfl hctrl
  case afainv => exact absurd rfl hafainv
  case n | shk | afa | afb | klen | dlen =>
    cases t' with
    | status => exact absurd rfl hst
    | _ => rfl
  case x i =>
    cases t' with
    | status => exact absurd rfl hst
    | x j =>
      simp only [State.targetValue, State.writeTarget, State.readX_writeX, Target.x.injEq, eq_comm (a := j)]
      exact apply_ite some _ _ _
    | _ => rfl
  case data i =>
    have hi : i < s.cfg.dmax := hm
    cases t' with
    | status => exact absurd rfl hst
    | data j =>
      simp only [Target.data.injEq]
      exact Memory.readWord_writeWord_elem _ _ _ _ _
    | key j => exact Memory.readWord_writeWord_other _ _ (by simp only [dataAddr, keyAddr]; omega)
    | _ => rfl
  case key i =>
    cases t' with
    | status => exact absurd rfl hst
    | data j =>
      have hj : j < s.cfg.dmax := hm'
      exact Memory.readWord_writeWord_other _ _ (by simp only [dataAddr, keyAddr]; omega)
    | key j =>
      simp only [Target.key.injEq]
      exact Memory.readWord_writeWord_elem _ _ _ _ _
    | _ => rfl

/-- An accepted write leaves every byte of memory outside the element written (R54). -/
theorem State.read_writeTarget {s : State} {t : Target} (v : Word) {a : Nat}
    (hd : ∀ i, t = .data i → ¬(dataAddr i ≤ a ∧ a < dataAddr i + 8))
    (hk : ∀ i, t = .key i → ¬(keyAddr i ≤ a ∧ a < keyAddr i + 8)) :
    Memory.read (s.writeTarget v t).mem a = Memory.read s.mem a := by
  cases t with
  | data i => exact (Memory.read_writeWord _ _ _ _).trans (if_neg (hd i rfl))
  | key i => exact (Memory.read_writeWord _ _ _ _).trans (if_neg (hk i rfl))
  | _ => rfl

/-- Settles O22: the frame of an accepted write, target by target, flag by flag and byte by byte. -/
theorem acceptedWriteChangesOnlyItsTarget : Obligations.AcceptedWriteChangesOnlyItsTarget := by
  intro s t v hc hm hs hb
  obtain ⟨hinflight, hrst, hfault, hcfg, hagenda, hdraws⟩ := State.writeTarget_frame (s := s) v hs.1
  refine ⟨_, busAccess_writeOf_storable v hc hm hs hb, ?targets, State.writeTarget_status v hs, hinflight, hrst, hfault,
    hcfg, hagenda, hdraws, ?bytes⟩
  case targets =>
    intro t' hm' ht hst
    exact (State.targetValue_writeTarget v hc hm hm' hs hst).trans (if_neg ht)
  case bytes =>
    intro a ha
    exact State.read_writeTarget v (fun i ht hin => ha ⟨i, .inl ⟨ht, hin⟩⟩) (fun i ht hin => ha ⟨i, .inr ⟨ht, hin⟩⟩)

/-- Settles O27: an unwritten element has no value, and no read is drawn while BUSY = 0. -/
theorem hostReadOfUnwrittenElementFaults : Obligations.HostReadOfUnwrittenElementFaults := by
  intro s i hc hb
  have key {t : Target} (hm : Mapped s.cfg t) (hu : s.targetValue t = none) :
      busAccess (readOf t) s = .fault .unwrittenRead := by
    rw [busAccess_readOf (checkAccess_offset hc hm)]
    exact readTarget_eq_fault.mpr ⟨hb, hu⟩
  exact ⟨key (t := .data i), key (t := .key i)⟩

end Sys2Proof.Machine
end

section
/-! PROOFS. The decoder reads a command back from its word, and the obligation on a CMD write with the turn of the
ENGINE after it (30_encoding.md R67 to R73; 10_state.md R27, R38). -/

namespace Sys2Proof

/-! ### The fields of a packed word -/

/-- A packed word as a number: each field at its place of R67. -/
theorem toNat_cmdWrite_packFields (rs3 rs2 rs1 rd : BitVec 3) (op : BitVec 8) :
    (cmdWrite (packFields rs3 rs2 rs1 rd op)).toNat =
      op.toNat + 2 ^ 8 * rd.toNat + 2 ^ 11 * rs1.toNat + 2 ^ 14 * rs2.toNat + 2 ^ 17 * rs3.toNat := by
  have hop := op.isLt
  have hrd := rd.isLt
  have hrs1 := rs1.isLt
  have hrs2 := rs2.isLt
  have hrs3 := rs3.isLt
  simp only [cmdWrite, packFields, BitVec.toNat_setWidth, BitVec.toNat_append, ← Nat.shiftLeft_add_eq_or_of_lt hop,
    ← Nat.shiftLeft_add_eq_or_of_lt hrd, ← Nat.shiftLeft_add_eq_or_of_lt hrs1, ← Nat.shiftLeft_add_eq_or_of_lt hrs2,
    ← Nat.shiftLeft_add_eq_or_of_lt hrs3]
  simp only [Nat.shiftLeft_eq, show (0 : BitVec 12).toNat = 0 from rfl]
  omega

section
variable (rs3 rs2 rs1 rd : BitVec 3) (op : BitVec 8)

/-- Every field of a packed word reads back, and its reserved bits are 0 (R67). -/
theorem fields_of_packFields :
    opField (cmdWrite (packFields rs3 rs2 rs1 rd op)) = op ∧ rdField (cmdWrite (packFields rs3 rs2 rs1 rd op)) = rd ∧
      rs1Field (cmdWrite (packFields rs3 rs2 rs1 rd op)) = rs1 ∧
      rs2Field (cmdWrite (packFields rs3 rs2 rs1 rd op)) = rs2 ∧
      rs3Field (cmdWrite (packFields rs3 rs2 rs1 rd op)) = rs3 ∧
      rsvField (cmdWrite (packFields rs3 rs2 rs1 rd op)) = 0 ∧
      upperField (cmdWrite (packFields rs3 rs2 rs1 rd op)) = 0 := by
  have hop := op.isLt
  have hrd := rd.isLt
  have hrs1 := rs1.isLt
  have hrs2 := rs2.isLt
  have hrs3 := rs3.isLt
  refine ⟨?_, ?_, ?_, ?_, ?_, ?_, ?_⟩ <;> apply BitVec.eq_of_toNat_eq <;>
    simp only [opField, rdField, rs1Field, rs2Field, rs3Field, rsvField, upperField, BitVec.extractLsb'_toNat,
      toNat_cmdWrite_packFields, Nat.shiftRight_eq_div_pow, show (0 : BitVec 12).toNat = 0 from rfl,
      show (0 : BitVec 32).toNat = 0 from rfl] <;>
    omega

/-- A packed word is decoded by its opcode alone: its upper half and its reserved field are 0 (R72). -/
theorem decode_packFields :
    decode (cmdWrite (packFields rs3 rs2 rs1 rd op)) = decodeOpcode (cmdWrite (packFields rs3 rs2 rs1 rd op)) := by
  simp [decode, fields_of_packFields]

theorem formatR3_packFields (i : RegIdx → RegIdx → RegIdx → RegIdx → Instr) :
    formatR3 (cmdWrite (packFields rs3 rs2 rs1 rd op)) i = .ok (i (regOf rd) (regOf rs1) (regOf rs2) (regOf rs3)) := by
  simp [formatR3, fields_of_packFields]

theorem formatR2_packFields (i : RegIdx → RegIdx → RegIdx → Instr) :
    formatR2 (cmdWrite (packFields 0#3 rs2 rs1 rd op)) i = .ok (i (regOf rd) (regOf rs1) (regOf rs2)) := by
  simp [formatR2, fields_of_packFields]

theorem formatZ_packFields (i : Instr) : formatZ (cmdWrite (packFields 0#3 0#3 0#3 0#3 op)) i = .ok i := by
  simp [formatZ, fields_of_packFields]

end

@[simp] theorem regOf_fieldOf (r : RegIdx) : regOf (fieldOf r) = r := rfl

/-- The decoder reads back the word of a well-formed command (R67, R68, R71). -/
theorem decode_cmdWrite_encode {i : Instr} (hi : i.wellFormed = true) : decode (cmdWrite (encode i)) = .ok i := by
  cases i
  case nop | shenc | shdec | afcfg | afenc | afdec | paenc | padec =>
    simp [encode, decode_packFields, decodeOpcode, fields_of_packFields, Instr.opcode, formatZ_packFields]
  case mod | gcd | modinv =>
    simp [encode, decode_packFields, decodeOpcode, fields_of_packFields, Instr.opcode, formatR2_packFields]
  case extgcd =>
    simp [encode, decode_packFields, decodeOpcode, fields_of_packFields, Instr.opcode, formatR2_packFields,
      checkWellFormed, hi]
  case modpow =>
    simp [encode, decode_packFields, decodeOpcode, fields_of_packFields, Instr.opcode, formatR3_packFields]

end Sys2Proof

namespace Sys2Proof.Machine

/-- The turn of the ENGINE while a command is in flight is that command (R102, R103). -/
theorem step_of_engine_busy {s : State} {i : Instr} {rest : List Event} (hf : s.fault = none)
    (ha : s.agenda = .engine :: rest) (hb : s.status.busy = true) (hd : decode s.inflight = .ok i) :
    step s = recordFault { s with agenda := rest } (exec i { s with agenda := rest }) := by
  simp [step_of_event hf ha, runEvent, engineTurn, completeInFlight, hb, hd]

/-- Settles O8: the write is the accepted CMD write of the step, and the word in flight decodes to the command. -/
theorem cmdWriteThenTurnRunsTheCommand : Obligations.CmdWriteThenTurnRunsTheCommand := by
  intro s i rest hi hf hb hr ha
  refine ⟨_, ?write, rfl, StepIs.of_recordFault (step_of_engine_busy hf rfl rfl (decode_cmdWrite_encode hi))⟩
  case write =>
    rw [step_of_event hf ha, runEvent, requestTurn_of_rst_low (s := { s with agenda := .engine :: rest }) _ hr,
      busAccess_writeOf _ (checkAccess_offset_register _ (by decide)), storeTarget_accepted rfl (by simp [hb])]
    rfl

end Sys2Proof.Machine
end

section
/-! PROOFS. Reset: the obligation on the values that asserting `rst` leaves (10_state.md R41; 70_reset_and_hazards.md
R119, R120). -/

namespace Sys2Proof.Machine

/-- From a faulted state, the step takes the first assertion of `rst` among the events (R119). -/
theorem step_of_fault_asserted {s : State} {f : Fault} {before after : List Event} (hf : s.fault = some f)
    (ha : s.agenda = before ++ .pin true :: after) (hb : Event.pin true ∉ before) :
    step s = .next { s with agenda := after }.asserted := by
  simp [step, hf, faultedTurn, ha, afterAssertion_append hb]

/-- An assertion of `rst` that is the oldest event is taken in every state, a faulted one too. -/
theorem step_of_pin_asserted {s : State} {rest : List Event} (ha : s.agenda = .pin true :: rest) :
    step s = .next { s with agenda := rest }.asserted := by
  cases hf : s.fault with
  | none => rw [step_of_event hf ha]; rfl
  | some f => exact step_of_fault_asserted (before := []) hf ha List.not_mem_nil

/-- Settles O9: both steps answer the asserted state, and `State.reset` has its registers. -/
theorem resetLeavesTheValuesOfTheTable : Obligations.ResetLeavesTheValuesOfTheTable := by
  refine ⟨State.reset.holdsResetValues_asserted, rfl, ?pin, ?faulted⟩
  case pin =>
    intro s rest ha
    exact ⟨_, step_of_pin_asserted ha, State.holdsResetValues_asserted _, rfl, rfl, rfl, rfl⟩
  case faulted =>
    intro s f before after hf ha hb
    exact ⟨_, step_of_fault_asserted hf ha hb, State.holdsResetValues_asserted _, rfl, rfl, rfl, rfl, rfl⟩

end Sys2Proof.Machine
end

section
/-! PROOFS. The three shapes of a command, each by the state that its outcome depends on, and which commands can stop
(40_number_theory.md R75; 41_cipher_datapath.md R83 to R86, R92). -/

namespace Sys2Proof.Machine

/-! ### Number-theory commands and NOP: X alone -/

/-- The outcome of a command that reads nothing but X0 to X7: in every state with the X of s it is the same error, or it
writes the same values to X. -/
inductive OperandOutcome (i : Instr) (s : State) : Prop
  | fails (e : ErrCode) (h : ∀ s', s'.x = s.x → exec i s' = raise e s')
  | writes (y : Vector Word 8) (h : ∀ s', s'.x = s.x → exec i s' = complete { s' with x := y })

theorem State.xInt_congr {s s' : State} (h : s'.x = s.x) (r : RegIdx) : s'.xInt r = s.xInt r := by
  simp only [State.xInt, State.readX, h]

theorem State.writeX_congr {s s' : State} (h : s'.x = s.x) (rd : RegIdx) (w : Word) :
    s'.writeX rd w = { s' with x := (s.writeX rd w).x } := by
  simp only [State.writeX, h]

theorem State.writeTriple_congr {s s' : State} (h : s'.x = s.x) (rd : RegIdx) (t : Int × Int × Int) :
    s'.writeTriple rd t = { s' with x := (s.writeTriple rd t).x } := by
  simp only [State.writeTriple, State.writeX, h]

theorem execMod_operands (rd rs1 rs2 : RegIdx) (s : State) : OperandOutcome (.mod rd rs1 rs2) s := by
  by_cases h : s.xInt rs2 ≤ 0
  · exact .fails .domain fun s' hx => by simp only [exec, execMod, State.xInt_congr hx, if_pos h]
  · exact .writes _ fun s' hx => by
      simp only [exec, execMod, State.xInt_congr hx, if_neg h]
      rw [State.writeX_congr hx]

theorem execGcd_operands (rd rs1 rs2 : RegIdx) (s : State) : OperandOutcome (.gcd rd rs1 rs2) s := by
  by_cases h : s.xInt rs1 ≤ 0 ∨ s.xInt rs2 ≤ 0
  · exact .fails .domain fun s' hx => by simp only [exec, execGcd, State.xInt_congr hx, if_pos h]
  · exact .writes _ fun s' hx => by
      simp only [exec, execGcd, State.xInt_congr hx, if_neg h]
      rw [State.writeX_congr hx]

theorem execExtgcd_operands (rd rs1 rs2 : RegIdx) (s : State) : OperandOutcome (.extgcd rd rs1 rs2) s := by
  by_cases hrd : 5 < rd.val
  · exact .fails .illegal fun s' hx => by simp only [exec, execExtgcd, if_pos hrd]
  · by_cases h : s.xInt rs1 ≤ 0 ∨ s.xInt rs2 ≤ 0
    · exact .fails .domain fun s' hx => by simp only [exec, execExtgcd, State.xInt_congr hx, if_neg hrd, if_pos h]
    · exact .writes _ fun s' hx => by
        simp only [exec, execExtgcd, State.xInt_congr hx, if_neg hrd, if_neg h]
        rw [State.writeTriple_congr hx]

theorem execModinv_operands (rd rs1 rs2 : RegIdx) (s : State) : OperandOutcome (.modinv rd rs1 rs2) s := by
  by_cases h : s.xInt rs1 ≤ 0 ∨ s.xInt rs2 ≤ 0
  · exact .fails .domain fun s' hx => by simp only [exec, execModinv, State.xInt_congr hx, if_pos h]
  · cases hinv : invZ (s.xInt rs1) (s.xInt rs2) with
    | none =>
      exact .fails .notInvertible fun s' hx => by simp only [exec, execModinv, State.xInt_congr hx, if_neg h, hinv]
    | some r =>
      exact .writes _ fun s' hx => by
        simp only [exec, execModinv, State.xInt_congr hx, if_neg h, hinv]
        rw [State.writeX_congr hx]

theorem execModpow_operands (rd rs1 rs2 rs3 : RegIdx) (s : State) : OperandOutcome (.modpow rd rs1 rs2 rs3) s := by
  by_cases h : s.xInt rs1 ≤ 0 ∨ s.xInt rs2 ≤ 0 ∨ s.xInt rs3 ≤ 0
  · exact .fails .domain fun s' hx => by simp only [exec, execModpow, State.xInt_congr hx, if_pos h]
  · exact .writes _ fun s' hx => by
      simp only [exec, execModpow, State.xInt_congr hx, if_neg h]
      rw [State.writeX_congr hx]

theorem execNop_operands (s : State) : OperandOutcome .nop s :=
  .writes s.x fun s' hx => by simp only [exec, execNop, ← hx]

/-- Every command but AFCFG and the sequence commands reads nothing but X. -/
theorem exec_operands {i : Instr} (hs : i ∉ sequenceCommands) (ha : i ≠ .afcfg) (s : State) : OperandOutcome i s := by
  cases i with
  | nop => exact execNop_operands s
  | mod rd rs1 rs2 => exact execMod_operands rd rs1 rs2 s
  | gcd rd rs1 rs2 => exact execGcd_operands rd rs1 rs2 s
  | extgcd rd rs1 rs2 => exact execExtgcd_operands rd rs1 rs2 s
  | modinv rd rs1 rs2 => exact execModinv_operands rd rs1 rs2 s
  | modpow rd rs1 rs2 rs3 => exact execModpow_operands rd rs1 rs2 rs3 s
  | afcfg => exact absurd rfl ha
  | _ => exact absurd (by simp [sequenceCommands]) hs

/-! ### AFCFG: N and AFA alone -/

/-- The outcome of AFCFG: in every state with the N and AFA of s it is the same error, which clears AFV, or it caches
the same inverse (R92). -/
inductive AfcfgOutcome (s : State) : Prop
  | fails (e : ErrCode) (h : ∀ s', s'.n = s.n → s'.afa = s.afa → execAfcfg s' = raise e (s'.setAfv false))
  | caches (w : Word)
      (h : ∀ s', s'.n = s.n → s'.afa = s.afa → execAfcfg s' = complete ({ s' with afainv := w }.setAfv true))

theorem execAfcfg_outcome (s : State) : AfcfgOutcome s := by
  by_cases hn : sint s.n ≤ 0
  · exact .fails .domain fun s' hn' _ => by simp only [execAfcfg, hn', if_pos hn]
  · by_cases ha : sint s.afa ≤ 0
    · exact .fails .domain fun s' hn' ha' => by simp only [execAfcfg, hn', ha', if_neg hn, if_pos ha]
    · cases hinv : invZ (sint s.afa) (sint s.n) with
      | none =>
        exact .fails .notInvertible fun s' hn' ha' => by simp only [execAfcfg, hn', ha', if_neg hn, if_neg ha, hinv]
      | some r =>
        exact .caches (enc r) fun s' hn' ha' => by simp only [execAfcfg, hn', ha', if_neg hn, if_neg ha, hinv]

/-! ### Sequence commands -/

/-- The command's own check of R84, after those of N and DLEN. -/
def ownCheck (i : Instr) (s : State) : Option ErrCode :=
  match i with
  | .afenc => configuredCheck s
  | .afdec => configuredCheck s
  | .paenc => keyCheck s
  | .padec => keyCheck s
  | _ => none

/-- The transform of one element by a sequence command, by the element's position and value; none when a KEY element
that it reads is unwritten, and for every other command (R86, R89 to R98). -/
def elementMap (i : Instr) (s : State) : Option (Nat → Int → Int) :=
  match i with
  | .shenc => some fun _ x => shiftEnc (sint s.n) (sint s.shk) x
  | .shdec => some fun _ y => shiftDec (sint s.n) (sint s.shk) y
  | .afenc => some fun _ x => affineEnc (sint s.n) (sint s.afa) (sint s.afb) x
  | .afdec => some fun _ y => affineDec (sint s.n) (sint s.afainv) (sint s.afb) y
  | .paenc => s.readKeyStream.map fun ks i x => polyEnc (sint s.n) (keyFor ks (uint s.klen) i) x
  | .padec => s.readKeyStream.map fun ks i y => polyDec (sint s.n) (keyFor ks (uint s.klen) i) y
  | _ => none

/-- A sequence command: its checks, the elements of KEY it reads, and DATA transformed in place. -/
def sequenceRun (own : Option ErrCode) (f : Option (Nat → Int → Int)) (s : State) :
    Host.Outcome State Fault Refusal :=
  match sequenceCheck s own with
  | some e => raise e s
  | none =>
    match f with
    | none => .fault .unwrittenRead
    | some f => transformData f s

theorem execPaenc_sequence (s : State) : execPaenc s = sequenceRun (ownCheck .paenc s) (elementMap .paenc s) s := by
  simp only [execPaenc, sequenceRun, ownCheck, elementMap]
  cases s.readKeyStream <;> rfl

theorem execPadec_sequence (s : State) : execPadec s = sequenceRun (ownCheck .padec s) (elementMap .padec s) s := by
  simp only [execPadec, sequenceRun, ownCheck, elementMap]
  cases s.readKeyStream <;> rfl

/-- The six sequence commands differ in their own check and their transform alone. -/
theorem exec_sequence {i : Instr} (hi : i ∈ sequenceCommands) (s : State) :
    exec i s = sequenceRun (ownCheck i s) (elementMap i s) s := by
  cases i with
  | shenc => rfl
  | shdec => rfl
  | afenc => rfl
  | afdec => rfl
  | paenc => exact execPaenc_sequence s
  | padec => exact execPadec_sequence s
  | _ => exact absurd hi (by simp [sequenceCommands])

/-- A sequence command that answers a next state has failed a check, or passed them and transformed DATA. -/
theorem sequenceRun_eq_next {own : Option ErrCode} {f : Option (Nat → Int → Int)} {s t : State}
    (h : sequenceRun own f s = .next t) :
    (∃ e, sequenceCheck s own = some e ∧ raise e s = .next t) ∨
      ∃ g, sequenceCheck s own = none ∧ f = some g ∧ transformData g s = .next t := by
  unfold sequenceRun at h
  split at h
  · rename_i e he
    exact .inl ⟨e, he, h⟩
  · rename_i hc
    split at h
    · cases h
    · rename_i g
      exact .inr ⟨g, hc, rfl, h⟩

theorem sequenceRun_of_failed_check {own : Option ErrCode} {f : Option (Nat → Int → Int)} {s : State} {e : ErrCode}
    (h : sequenceCheck s own = some e) : sequenceRun own f s = raise e s := by
  simp only [sequenceRun, h]

theorem sequenceRun_of_passed_checks {own : Option ErrCode} {f : Nat → Int → Int} {s : State}
    (h : sequenceCheck s own = none) : sequenceRun own (some f) s = transformData f s := by
  simp only [sequenceRun, h]

/-- A sequence command stops only on an unwritten element: of KEY, when it reads KEY, or of DATA (R86). -/
theorem sequenceRun_eq_fault {own : Option ErrCode} {f : Option (Nat → Int → Int)} {s : State} {r : Fault}
    (h : sequenceRun own f s = .fault r) : f = none ∨ ¬s.dataWritten := by
  unfold sequenceRun at h
  split at h
  · cases h
  · cases f with
    | none => exact .inl rfl
    | some g =>
      refine .inr fun hw => ?_
      obtain ⟨t, ht⟩ := transformData_completes g hw
      cases h.symm.trans ht

theorem transformData_ne_refused {f : Nat → Int → Int} {s : State} {r : Refusal} : transformData f s ≠ .refused r := by
  unfold transformData
  split <;> intro h <;> cases h

theorem sequenceRun_ne_refused {own : Option ErrCode} {f : Option (Nat → Int → Int)} {s : State} {r : Refusal} :
    sequenceRun own f s ≠ .refused r := by
  unfold sequenceRun
  split
  · intro h
    cases h
  · split
    · intro h
      cases h
    · exact transformData_ne_refused

/-- A sequence command that can be given no transform is PAENC or PADEC with a KEY element unwritten (R86). -/
theorem elementMap_eq_none {i : Instr} {s : State} (hi : i ∈ sequenceCommands) (h : elementMap i s = none) :
    (i = .paenc ∨ i = .padec) ∧ ¬s.keyWritten := by
  have unwritten : s.readKeyStream = none → ¬s.keyWritten := fun hk hw => by
    simpa [hk] using State.readKeyStream_isSome.mpr hw
  cases i with
  | paenc => exact ⟨.inl rfl, unwritten (Option.map_eq_none_iff.mp h)⟩
  | padec => exact ⟨.inr rfl, unwritten (Option.map_eq_none_iff.mp h)⟩
  | shenc => cases h
  | shdec => cases h
  | afenc => cases h
  | afdec => cases h
  | _ => exact absurd hi (by simp [sequenceCommands])

/-! ### Which commands answer, and with what left alone -/

/-- A command that is no sequence command always answers a next state, and leaves memory alone. -/
theorem exec_of_not_sequence {i : Instr} (hs : i ∉ sequenceCommands) (s : State) :
    ∃ t, exec i s = .next t ∧ t.mem = s.mem := by
  by_cases ha : i = .afcfg
  · subst ha
    rcases execAfcfg_outcome s with ⟨e, h⟩ | ⟨w, h⟩ <;> exact ⟨_, h s rfl rfl, rfl⟩
  · rcases exec_operands hs ha s with ⟨e, h⟩ | ⟨y, h⟩ <;> exact ⟨_, h s rfl, rfl⟩

theorem exec_keeps_mem {i : Instr} {s t : State} (hs : i ∉ sequenceCommands) (h : exec i s = .next t) :
    t.mem = s.mem := by
  obtain ⟨u, hu, hm⟩ := exec_of_not_sequence hs s
  cases hu.symm.trans h
  exact hm

/-- A command stops only on an unwritten element that a sequence command reads (R86). -/
theorem exec_eq_fault {i : Instr} {s : State} {f : Fault} (h : exec i s = .fault f) :
    i ∈ sequenceCommands ∧ (¬s.dataWritten ∨ ((i = .paenc ∨ i = .padec) ∧ ¬s.keyWritten)) := by
  by_cases hs : i ∈ sequenceCommands
  · rw [exec_sequence hs] at h
    exact ⟨hs, (sequenceRun_eq_fault h).symm.imp_right (elementMap_eq_none hs)⟩
  · obtain ⟨t, ht, _⟩ := exec_of_not_sequence hs s
    cases h.symm.trans ht

theorem exec_ne_refused {i : Instr} {s : State} {r : Refusal} : exec i s ≠ .refused r := by
  by_cases hs : i ∈ sequenceCommands
  · rw [exec_sequence hs]
    exact sequenceRun_ne_refused
  · obtain ⟨t, ht, _⟩ := exec_of_not_sequence hs s
    intro h
    cases h.symm.trans ht

/-- Transforming DATA touches memory and STATUS alone. -/
theorem transformData_frame {f : Nat → Int → Int} {s t : State} (h : transformData f s = .next t) :
    t = { s with mem := t.mem, status := s.status.succeeded } := (transformData_eq_next h).1

/-- Every command but AFCFG leaves AFV and AFAINV (R23, R32). -/
theorem exec_keeps_affine {i : Instr} {s t : State} (ha : i ≠ .afcfg) (h : exec i s = .next t) :
    t.status.afv = s.status.afv ∧ t.afainv = s.afainv := by
  by_cases hs : i ∈ sequenceCommands
  · rw [exec_sequence hs] at h
    rcases sequenceRun_eq_next h with ⟨e, _, hr⟩ | ⟨g, _, _, ht⟩
    · cases hr
      exact ⟨rfl, rfl⟩
    · rw [transformData_frame ht]
      exact ⟨rfl, rfl⟩
  · rcases exec_operands hs ha s with ⟨e, ho⟩ | ⟨y, ho⟩ <;> cases (ho s rfl).symm.trans h <;> exact ⟨rfl, rfl⟩

end Sys2Proof.Machine
end

section
/-! PROOFS. What every effect of a command keeps, and the obligations on the frames of the commands and on what they
ignore (10_state.md R17, R37, R39; 41_cipher_datapath.md R83; 60_exceptions.md R103, R104). -/

namespace Sys2Proof.Machine

/-! ### What every effect of a command keeps -/

/-- A command that has had its effect has ended, with ERR and ERRCODE in step, and BOVR stays (R24, R39, R103, R104). -/
theorem CommandEffect.ended {s t : State} (h : CommandEffect s t) :
    t.status.busy = false ∧ t.status.done = true ∧ (t.status.err = true ↔ t.status.errCode ≠ .noError) ∧
      t.status.bovr = s.status.bovr := by
  cases h with
  | failed e he => exact ⟨rfl, rfl, iff_of_true rfl he, rfl⟩
  | unconfigured e he => exact ⟨rfl, rfl, iff_of_true rfl he, rfl⟩
  | wroteX x => exact ⟨rfl, rfl, iff_of_false (by simp) (by simp), rfl⟩
  | configured r _ _ _ => exact ⟨rfl, rfl, iff_of_false (by simp) (by simp), rfl⟩
  | transformed f ht =>
    rw [transformData_frame ht]
    exact ⟨rfl, rfl, iff_of_false (by simp) (by simp), rfl⟩

/-- A command has no effect outside X, AFAINV, memory and STATUS (R39). -/
theorem CommandEffect.frame {s t : State} (h : CommandEffect s t) :
    t = { s with x := t.x, afainv := t.afainv, mem := t.mem, status := t.status } := by
  cases h with
  | transformed f ht =>
    have hframe := transformData_frame ht
    generalize t.mem = m at hframe
    subst hframe
    rfl
  | _ => rfl

/-- A command has no effect on bytes outside DATA[0 .. DLEN-1] (R83). -/
theorem CommandEffect.read_outside {s t : State} (h : CommandEffect s t) {a : Nat}
    (ha : a < dataAddr 0 ∨ dataAddr (uint s.dlen) ≤ a) : Memory.read t.mem a = Memory.read s.mem a := by
  cases h with
  | transformed f ht =>
    obtain ⟨_, _, hout, _, _⟩ := transformData_eq_next ht
    exact hout a ha
  | _ => rfl

/-- Settles O32: every effect of a command is such an end, only AFCFG touches AFV and AFAINV, and only the sequence
commands touch memory. -/
theorem everyCommandEndsAndWritesNoOtherState : Obligations.EveryCommandEndsAndWritesNoOtherState := by
  intro i s t h
  have effect := exec_effect h
  obtain ⟨hbusy, hdone, herr, hbovr⟩ := effect.ended
  exact ⟨hbusy, hdone, herr, hbovr, fun ha => exec_keeps_affine ha h, effect.frame, fun _ => effect.read_outside,
    fun hs => exec_keeps_mem hs h⟩

/-! ### KEY -/

/-- With legal parameters, the elements that a sequence command transforms end below the KEY window (R45, R46, R84). -/
theorem dataAddr_dlen_le_keyAddr {s : State} {own : Option ErrCode} (hc : s.cfg.wf)
    (h : sequenceCheck s own = none) : dataAddr (uint s.dlen) ≤ keyAddr 0 := by
  obtain ⟨_, hlen, _⟩ := sequenceCheck_eq_none.mp h
  obtain ⟨_, hd, _, _⟩ := hc
  simp only [dataAddr, keyAddr]
  omega

/-- Settles O34: a sequence command transforms DATA below the KEY window, and the others leave memory alone. -/
theorem noCommandWritesKey : Obligations.NoCommandWritesKey := by
  intro i s t hc h a ha
  by_cases hs : i ∈ sequenceCommands
  · have effect := exec_effect h
    rw [exec_sequence hs] at h
    rcases sequenceRun_eq_next h with ⟨e, _, hr⟩ | ⟨g, hchecks, _, _⟩
    · cases hr
      rfl
    · exact effect.read_outside (.inr ((dataAddr_dlen_le_keyAddr hc hchecks).trans ha))
  · rw [exec_keeps_mem hs h]

/-- Two memories that agree on a byte agree on it after the same run of elements is written to both. -/
theorem Memory.read_writeElems_congr {m m' : Memory} {k : Nat} (h : Memory.read m' k = Memory.read m k)
    (ws : List Word) (a : Nat) :
    Memory.read (Memory.writeElems m' a ws) k = Memory.read (Memory.writeElems m a ws) k := by
  induction ws generalizing m m' a with
  | nil => exact h
  | cons w ws ih =>
    refine ih ?_ _
    rw [Memory.read_writeWord, Memory.read_writeWord, h]

/-- s and u are the same, but for memory at and above the KEY window. -/
def AgreeBelowKey (s u : State) : Prop :=
  s = { u with mem := s.mem } ∧ ∀ a, a < keyAddr 0 → Memory.read u.mem a = Memory.read s.mem a

/-- DATA below the KEY window is transformed alike in two states that agree below it. -/
theorem transformData_agreeBelowKey {f : Nat → Int → Int} {s t : State} {m : Memory}
    (hlen : dataAddr (uint s.dlen) ≤ keyAddr 0) (hm : ∀ a, a < keyAddr 0 → Memory.read m a = Memory.read s.mem a)
    (h : transformData f s = .next t) : ∃ u, transformData f { s with mem := m } = .next u ∧ AgreeBelowKey t u := by
  have hread : State.readSequence { s with mem := m } = s.readSequence :=
    Memory.readElems_congr fun k _ hk => hm k (Nat.lt_of_lt_of_le hk hlen)
  unfold transformData at h ⊢
  rw [hread]
  split at h
  · cases h
  · cases h
    exact ⟨_, rfl, rfl, fun a ha => Memory.read_writeElems_congr (hm a ha) _ _⟩

/-- The transform of a sequence command but PAENC and PADEC, and its check, do not depend on memory. -/
theorem elementMap_withMem {i : Instr} (he : i ≠ .paenc) (hd : i ≠ .padec) (s : State) (m : Memory) :
    elementMap i { s with mem := m } = elementMap i s := by
  cases i with
  | paenc => exact absurd rfl he
  | padec => exact absurd rfl hd
  | _ => rfl

theorem ownCheck_withMem (i : Instr) (s : State) (m : Memory) : ownCheck i { s with mem := m } = ownCheck i s := by
  cases i <;> rfl

/-- Settles O35: a sequence command that reads no KEY transforms DATA alike, and the others do not read memory. -/
theorem onlyPolyalphabeticCommandsReadKey : Obligations.OnlyPolyalphabeticCommandsReadKey := by
  intro i s t m he hd hc hm h
  by_cases hs : i ∈ sequenceCommands
  · rw [exec_sequence hs] at h
    rw [exec_sequence hs, ownCheck_withMem, elementMap_withMem he hd]
    rcases sequenceRun_eq_next h with ⟨e, hcheck, hr⟩ | ⟨g, hchecks, hmap, ht⟩
    · cases hr
      exact ⟨_, sequenceRun_of_failed_check hcheck, rfl, hm⟩
    · rw [hmap, sequenceRun_of_passed_checks (s := { s with mem := m }) hchecks]
      exact transformData_agreeBelowKey (dataAddr_dlen_le_keyAddr hc hchecks) hm ht
  · by_cases ha : i = .afcfg
    · subst ha
      rcases execAfcfg_outcome s with ⟨e, ho⟩ | ⟨w, ho⟩ <;> cases (ho s rfl rfl).symm.trans h <;>
        exact ⟨_, ho _ rfl rfl, rfl, hm⟩
    · rcases exec_operands hs ha s with ⟨e, ho⟩ | ⟨y, ho⟩ <;> cases (ho s rfl).symm.trans h <;>
        exact ⟨_, ho _ rfl, rfl, hm⟩

/-! ### Operand registers -/

/-- Transforming DATA neither reads nor writes X. -/
theorem transformData_withX {f : Nat → Int → Int} {s t : State} (x : Vector Word 8)
    (h : transformData f s = .next t) : t.x = s.x ∧ transformData f { s with x := x } = .next { t with x := x } := by
  have hread : State.readSequence { s with x := x } = s.readSequence := rfl
  unfold transformData at h ⊢
  rw [hread]
  split at h
  · cases h
  · cases h
    exact ⟨rfl, rfl⟩

theorem elementMap_withX (i : Instr) (s : State) (x : Vector Word 8) :
    elementMap i { s with x := x } = elementMap i s := by
  cases i <;> rfl

theorem ownCheck_withX (i : Instr) (s : State) (x : Vector Word 8) : ownCheck i { s with x := x } = ownCheck i s := by
  cases i <;> rfl

/-- NOP is the one command that is no number-theory command and no cipher command. -/
theorem eq_nop_of_no_group {i : Instr} (hn : numberTheoryCommand i = false) (hs : i ∉ sequenceCommands)
    (ha : i ≠ .afcfg) : i = .nop := by
  cases i
  case nop => rfl
  case afcfg => exact absurd rfl ha
  case mod | gcd | extgcd | modinv | modpow => cases hn
  case shenc | shdec | afenc | afdec | paenc | padec => exact absurd (by simp [sequenceCommands]) hs

/-- Settles O37: the checks and the transforms of the sequence commands, AFCFG's N and AFA, and NOP know no X. -/
theorem cipherCommandsIgnoreOperandRegisters : Obligations.CipherCommandsIgnoreOperandRegisters := by
  intro i s t x hn h
  by_cases hs : i ∈ sequenceCommands
  · rw [exec_sequence hs] at h ⊢
    rw [ownCheck_withX, elementMap_withX]
    rcases sequenceRun_eq_next h with ⟨e, hcheck, hr⟩ | ⟨g, hchecks, hmap, ht⟩
    · cases hr
      exact ⟨rfl, sequenceRun_of_failed_check hcheck⟩
    · rw [hmap, sequenceRun_of_passed_checks (s := { s with x := x }) hchecks]
      exact transformData_withX x ht
  · by_cases ha : i = .afcfg
    · subst ha
      rcases execAfcfg_outcome s with ⟨e, ho⟩ | ⟨w, ho⟩ <;> cases (ho s rfl rfl).symm.trans h <;>
        exact ⟨rfl, ho _ rfl rfl⟩
    · obtain rfl := eq_nop_of_no_group hn hs ha
      cases h
      exact ⟨rfl, rfl⟩

end Sys2Proof.Machine
end

section
/-! PROOFS. What one step can do, said once, and the obligations on `irq`, on BUSY, on the inputs of a command in
flight, and on faults (10_state.md R20, R38, R40, R42; 60_exceptions.md R103, R118; 70_reset_and_hazards.md R119). -/

namespace Sys2Proof.Machine

/-! ### One host access -/

/-- What one host access can do: it is answered, it is a write that is dropped, or it is a write that has its effect. -/
inductive AccessEffect (r : Request) (s : State) : State → Prop
  /-- A read, or BUSERR: only the response and the count of draws differ (R49, R53, R54). -/
  | answered (a : Option Response) (d : Nat) : AccessEffect r s { s with response := a, draws := d }
  /-- R52: BOVR is set. -/
  | dropped : AccessEffect r s (s.dropWrite.respond .okay)
  /-- R54: the write has its effect on its target; while BUSY = 1 it is one that is never dropped. -/
  | written (off : Offset) (bytes : List Byte) (t : Target) (hr : r = .write off bytes) (hl : bytes.length = 8)
      (ht : off = BitVec.ofNat 14 t.offset) (hro : t.readOnly = false)
      (hb : s.status.busy = true → t.droppedWhileBusy = false) :
      AccessEffect r s ((s.writeTarget (ofLanes bytes) t).respond .okay)

/-- An aligned offset that names a target is the target's offset (R44). -/
theorem offset_of_targetAt {c : Config} {a : Nat} {t : Target} (h : targetAt c a = some t) (ha : a % 8 = 0) :
    a = t.offset := by
  unfold targetAt at h
  split at h
  · cases h
    simp only [Target.offset, Fin.val_ofNat]
    omega
  · split at h
    · split at h
      · cases h
        simp only [Target.offset]
        omega
      · cases h
    · split at h
      · split at h
        · cases h
          simp only [Target.offset]
          omega
        · cases h
      · unfold singleAt at h
        split at h <;> cases h <;> rfl

theorem busAccess_effect {r : Request} {s t : State} (h : busAccess r s = .next t) : AccessEffect r s t := by
  rcases busAccess_eq_next h with rfl | ⟨_, _, _, _, _, _, _, rfl⟩ | ⟨_, _, _, _, rfl⟩ |
    ⟨_, _, _, _, _, _, _, rfl⟩ | ⟨off, bytes, tgt, hr, hacc, hro, hb, rfl⟩
  · exact .answered _ s.draws
  · exact .answered _ s.draws
  · exact .answered _ _
  · exact .dropped
  · obtain ⟨hl, halign, htgt⟩ := checkAccess_eq_some.mp hacc
    refine .written off bytes tgt hr hl ?_ hro hb
    rw [← offset_of_targetAt htgt halign, BitVec.ofNat_toNat, BitVec.setWidth_eq]

theorem readTarget_ne_refused {t : Target} {s : State} {e : Refusal} : readTarget t s ≠ .refused e := by
  unfold readTarget
  split
  · simp
  · split
    · simp
    · split <;> simp

theorem busAccess_ne_refused {r : Request} {s : State} {e : Refusal} : busAccess r s ≠ .refused e := by
  cases r with
  | read off size =>
    rw [busAccess]
    split
    · simp
    · exact readTarget_ne_refused
  | write off bytes =>
    rw [busAccess]
    split <;> simp

/-! ### One event -/

/-- What the event that comes next does when it answers a next state. -/
inductive EventEffect (s : State) : State → Prop
  /-- R119: `rst` is asserted. -/
  | asserted (es : List Event) : EventEffect s (State.asserted { s with agenda := es })
  /-- R117, R119: the block idles, `rst` is released, or a request waits for the pin. -/
  | idled (es : List Event) (level : Bool) : EventEffect s { s with agenda := es, rst := level }
  /-- R103: the command in flight completes. -/
  | completed {t : State} (hn : EngineNext s) (hb : s.status.busy = true)
      (he : CommandEffect { s with agenda := s.agenda.tail } t) : EventEffect s t
  /-- R58: a request is served. -/
  | served {t : State} (r : Request) (rest : List Event) (hr : s.rst = false) (ha : s.agenda = .bus r :: rest)
      (he : AccessEffect r { s with agenda := rest } t) : EventEffect s t

theorem engineNext_of_nextEvent {s : State} (h : nextEvent s.agenda = .engine) : EngineNext s := by
  unfold EngineNext
  cases ha : s.agenda with
  | nil => exact .inl rfl
  | cons e es =>
    rw [ha] at h
    obtain rfl : e = .engine := h
    exact .inr ⟨es, rfl⟩

theorem agenda_of_nextEvent_bus {es : List Event} {r : Request} (h : nextEvent es = .bus r) :
    es = .bus r :: es.tail := by
  cases es with
  | nil => cases h
  | cons e es =>
    obtain rfl : e = .bus r := h
    rfl

theorem waitForPin_effect (s : State) (es : List Event) : EventEffect s (waitForPin { s with agenda := es }) := by
  unfold waitForPin
  split
  · exact .idled es s.rst
  · rename_i level rest _
    cases level with
    | true => exact .asserted rest
    | false => exact .idled rest false

/-- The event that comes next has one of the four effects. -/
theorem runEvent_effect {s t : State}
    (h : runEvent (nextEvent s.agenda) { s with agenda := s.agenda.tail } = .next t) : EventEffect s t := by
  cases he : nextEvent s.agenda with
  | engine =>
    have hn := engineNext_of_nextEvent he
    rw [he, runEvent] at h
    rcases engineTurn_cases { s with agenda := s.agenda.tail } with ⟨_, ht⟩ | ⟨hb, _, _, ht⟩ | ⟨hb, i, _, ht⟩ <;>
      rw [ht] at h
    · cases h
      exact .idled _ s.rst
    · exact .completed hn hb (.of_raise (by decide) h)
    · exact .completed hn hb (exec_effect h)
  | bus r =>
    rw [he, runEvent, requestTurn] at h
    split at h
    · cases h
      exact waitForPin_effect s _
    · rename_i hr
      exact .served r _ (by simpa using hr) (agenda_of_nextEvent_bus he) (busAccess_effect h)
  | pin level =>
    rw [he] at h
    cases h
    cases level with
    | true => exact .asserted _
    | false => exact .idled _ false

/-- An event faults only at a host read of an unwritten element while BUSY = 0, or at the completion of a sequence
command that reads one (R42, R86). -/
theorem runEvent_eq_fault {s : State} {f : Fault}
    (h : runEvent (nextEvent s.agenda) { s with agenda := s.agenda.tail } = .fault f) :
    (s.status.busy = false ∧ s.rst = false ∧ ∃ off t rest,
      s.agenda = .bus (.read off 8) :: rest ∧ targetAt s.cfg off.toNat = some t ∧
        ((∃ i, t = .data i ∧ s.dataAt i = none) ∨ ∃ i, t = .key i ∧ s.keyAt i = none)) ∨
    (s.status.busy = true ∧ EngineNext s ∧ ∃ i, decode s.inflight = .ok i ∧ i ∈ sequenceCommands ∧
      (¬s.dataWritten ∨ ((i = .paenc ∨ i = .padec) ∧ ¬s.keyWritten))) := by
  cases he : nextEvent s.agenda with
  | engine =>
    rw [he, runEvent] at h
    rcases engineTurn_cases { s with agenda := s.agenda.tail } with ⟨_, ht⟩ | ⟨hb, _, _, ht⟩ | ⟨hb, i, hi, ht⟩ <;>
      rw [ht] at h
    · cases h
    · cases h
    · exact .inr ⟨hb, engineNext_of_nextEvent he, i, hi, exec_eq_fault (s := { s with agenda := s.agenda.tail }) h⟩
  | bus r =>
    rw [he, runEvent, requestTurn] at h
    split at h
    · cases h
    · rename_i hr
      obtain ⟨off, size, t, rfl, hacc, hb, hv⟩ := busAccess_eq_fault h
      obtain ⟨rfl, _, htgt⟩ := checkAccess_eq_some.mp hacc
      refine .inl ⟨hb, by simpa using hr, off, t, _, agenda_of_nextEvent_bus he, htgt, ?_⟩
      cases t with
      | data i => exact .inl ⟨i, rfl, hv⟩
      | key i => exact .inr ⟨i, rfl, hv⟩
      | _ => cases hv
  | pin level =>
    rw [he] at h
    cases h

theorem runEvent_ne_refused {e : Event} {s : State} {r : Refusal} : runEvent e s ≠ .refused r := by
  intro h
  cases e with
  | engine =>
    rw [runEvent] at h
    rcases engineTurn_cases s with ⟨_, ht⟩ | ⟨_, _, _, ht⟩ | ⟨_, i, _, ht⟩ <;> rw [ht] at h
    · cases h
    · cases h
    · exact exec_ne_refused h
  | bus q =>
    rw [runEvent, requestTurn] at h
    split at h
    · cases h
    · exact busAccess_ne_refused h
  | pin level => cases h

/-! ### One step -/

/-- The two ways a step answers a next state: the effect of an event, or the record of a fault. -/
theorem step_effect {s t : State} (h : step s = .next t) :
    EventEffect s t ∨ ∃ f, s.fault = none ∧ t = { s with agenda := s.agenda.tail, fault := some f } ∧
      runEvent (nextEvent s.agenda) { s with agenda := s.agenda.tail } = .fault f := by
  rcases Laws.step_cases s with ⟨hf, he⟩ | ⟨f, _, he⟩ <;> rw [he] at h
  · rcases recordFault_eq_next.mp h with hnext | ⟨f, hfault, rfl⟩
    · exact .inl (runEvent_effect hnext)
    · exact .inr ⟨f, hf, rfl, hfault⟩
  · rcases faultedTurn_cases f s with ⟨rest, _, ht⟩ | ⟨_, ht⟩ <;> rw [ht] at h <;> cases h
    exact .inl (.asserted rest)

/-! ### `irq` -/

/-- Of the accepted writes, only one of 1 to CTRL's bit 0 while DONE = 1 raises `irq` (R40). -/
theorem State.irq_rises_by_write {s : State} {t : Target} {v : Word} (h0 : s.irq = false)
    (h1 : (s.writeTarget v t).irq = true) :
    t = .ctrl ∧ s.status.done = true ∧ s.ie = false ∧ v.getLsbD 0 = true := by
  have hoff : s.status.done = true → s.ie = false := fun hd => by simpa [State.irq, hd] using h0
  cases t with
  | cmd => simp [State.writeTarget, State.irq] at h1
  | status =>
    obtain ⟨hie, hcleared⟩ := Bool.and_eq_true_iff.mp h1
    obtain ⟨hdone, _⟩ := Bool.and_eq_true_iff.mp hcleared
    cases (hoff hdone).symm.trans hie
  | ctrl =>
    obtain ⟨hbit, hdone⟩ := Bool.and_eq_true_iff.mp h1
    exact ⟨rfl, hdone, hoff hdone, hbit⟩
  | _ => cases h0.symm.trans h1

/-- Settles O29: a completion, or an accepted write that raises `irq`; no other effect of a step sets IE or DONE. -/
theorem irqRisesOnlyAtCompletionOrEnable : Obligations.IrqRisesOnlyAtCompletionOrEnable := by
  intro s t h h0 h1
  rcases step_effect h with he | ⟨f, _, rfl, _⟩
  · cases he with
    | asserted es => cases h1
    | idled es level => cases h0.symm.trans h1
    | completed hn hb he =>
      obtain ⟨hbusy, hdone, _, _⟩ := he.ended
      exact .inl ⟨hb, hbusy, hdone, hn⟩
    | served r rest hr ha he =>
      cases he with
      | answered a d => cases h0.symm.trans h1
      | dropped => cases h0.symm.trans h1
      | written off bytes tgt hw hl ht hro hb =>
        obtain ⟨rfl, hdone, hie, hbit⟩ := State.irq_rises_by_write (s := { s with agenda := rest }) h0 h1
        subst hw ht
        exact .inr ⟨hdone, hie, bytes, rest, ha, hbit⟩
  · cases h0.symm.trans h1

/-! ### BUSY -/

/-- Of the accepted writes, only the one to CMD touches BUSY (R20). -/
theorem State.writeTarget_busy {s : State} {t : Target} (v : Word) (h : t ≠ .cmd) :
    (s.writeTarget v t).status.busy = s.status.busy := by
  cases t with
  | cmd => exact absurd rfl h
  | _ => rfl

/-- A served request sets BUSY only as an 8-byte CMD write, whose value it latches (R27, R101). -/
theorem AccessEffect.issued {r : Request} {s t : State} (h : AccessEffect r s t) (hs : s.status.busy = false)
    (ht : t.status.busy = true) :
    ∃ bytes, r = .write 0x0000 bytes ∧ bytes.length = 8 ∧ t.inflight = ofLanes bytes := by
  cases h with
  | answered a d => cases hs.symm.trans ht
  | dropped => cases hs.symm.trans ht
  | written off bytes tgt hr hl hoff _ _ =>
    by_cases hcmd : tgt = .cmd
    · subst hcmd hoff
      exact ⟨bytes, hr, hl, rfl⟩
    · cases (hs.symm.trans (State.writeTarget_busy (ofLanes bytes) hcmd).symm).trans ht

/-- No served request clears BUSY (R52). -/
theorem AccessEffect.busy_stays {r : Request} {s t : State} (h : AccessEffect r s t) (hs : s.status.busy = true) :
    t.status.busy = true := by
  cases h with
  | answered a d => exact hs
  | dropped => exact hs
  | written off bytes tgt _ _ _ _ hb =>
    have hcmd : tgt ≠ .cmd := by
      rintro rfl
      cases hb hs
    exact (State.writeTarget_busy (ofLanes bytes) hcmd).trans hs

theorem EventEffect.issued {s t : State} (h : EventEffect s t) (hs : s.status.busy = false)
    (ht : t.status.busy = true) :
    s.rst = false ∧ ∃ bytes rest, s.agenda = .bus (.write 0x0000 bytes) :: rest ∧ bytes.length = 8 ∧
      t.inflight = ofLanes bytes := by
  cases h with
  | asserted es => cases ht
  | idled es level => cases hs.symm.trans ht
  | completed hn hb he => cases hs.symm.trans hb
  | served r rest hr ha he =>
    obtain ⟨bytes, rfl, hl, hi⟩ := he.issued hs ht
    exact ⟨hr, bytes, rest, ha, hl, hi⟩

theorem EventEffect.ended {s t : State} (h : EventEffect s t) (hs : s.status.busy = true)
    (ht : t.status.busy = false) :
    (EngineNext s ∧ t.status.done = true) ∨ (t.rst = true ∧ HoldsResetValues t) := by
  cases h with
  | asserted es => exact .inr ⟨rfl, State.holdsResetValues_asserted _⟩
  | idled es level => cases hs.symm.trans ht
  | completed hn hb he =>
    obtain ⟨_, hdone, _, _⟩ := he.ended
    exact .inl ⟨hn, hdone⟩
  | served r rest hr ha he => cases (he.busy_stays hs).symm.trans ht

/-- Settles O30: BUSY by the effect of the event; recording a fault leaves it. -/
theorem busyChangesOnlyByIssueCompletionOrReset : Obligations.BusyChangesOnlyByIssueCompletionOrReset := by
  intro s t h
  rcases step_effect h with he | ⟨f, _, rfl, _⟩
  · exact ⟨he.issued, he.ended⟩
  · exact ⟨fun hs ht => (by cases hs.symm.trans ht), fun hs ht => (by cases hs.symm.trans ht)⟩

/-! ### The inputs of a command in flight -/

/-- INFLIGHT and every input a command can read are the same in both states (R38). -/
def SameInputs (s t : State) : Prop :=
  t.inflight = s.inflight ∧ t.x = s.x ∧ t.n = s.n ∧ t.shk = s.shk ∧ t.afa = s.afa ∧ t.afb = s.afb ∧
    t.afainv = s.afainv ∧ t.klen = s.klen ∧ t.dlen = s.dlen ∧ t.mem = s.mem ∧ t.status.afv = s.status.afv

/-- The writes that are accepted while BUSY = 1, those to STATUS and CTRL, touch no input of a command (R52). -/
theorem State.writeTarget_sameInputs {s : State} {t : Target} (v : Word) (hro : t.readOnly = false)
    (hd : t.droppedWhileBusy = false) : SameInputs s (s.writeTarget v t) := by
  cases t with
  | status => exact ⟨rfl, rfl, rfl, rfl, rfl, rfl, rfl, rfl, rfl, rfl, rfl⟩
  | ctrl => exact ⟨rfl, rfl, rfl, rfl, rfl, rfl, rfl, rfl, rfl, rfl, rfl⟩
  | afainv => cases hro
  | _ => cases hd

theorem AccessEffect.sameInputs {r : Request} {s t : State} (h : AccessEffect r s t) (hs : s.status.busy = true) :
    SameInputs s t := by
  cases h with
  | written off bytes tgt _ _ _ hro hb => exact State.writeTarget_sameInputs (s := s) _ hro (hb hs)
  | _ => exact ⟨rfl, rfl, rfl, rfl, rfl, rfl, rfl, rfl, rfl, rfl, rfl⟩

/-- Settles O31: a step that keeps BUSY at 1 is no completion and no reset, and no other effect touches an input. -/
theorem inputsStandStillWhileBusy : Obligations.InputsStandStillWhileBusy := by
  intro s t h hs ht
  rcases step_effect h with he | ⟨f, _, rfl, _⟩
  · cases he with
    | asserted es => cases ht
    | idled es level => exact ⟨rfl, rfl, rfl, rfl, rfl, rfl, rfl, rfl, rfl, rfl, rfl⟩
    | completed hn hb he =>
      obtain ⟨hbusy, _, _, _⟩ := he.ended
      cases hbusy.symm.trans ht
    | served r rest hr ha he => exact he.sameInputs hs
  · exact ⟨rfl, rfl, rfl, rfl, rfl, rfl, rfl, rfl, rfl, rfl, rfl⟩

/-! ### Faults -/

theorem State.writeTarget_fault (s : State) (v : Word) (t : Target) : (s.writeTarget v t).fault = s.fault := by
  cases t <;> rfl

theorem AccessEffect.keeps_fault {r : Request} {s t : State} (h : AccessEffect r s t) : t.fault = s.fault := by
  cases h with
  | written off bytes tgt _ _ _ _ _ => exact s.writeTarget_fault _ tgt
  | _ => rfl

/-- No effect of an event records a fault. -/
theorem EventEffect.no_fault {s t : State} (h : EventEffect s t) (hs : s.fault = none) : t.fault = none := by
  cases h with
  | asserted es => rfl
  | idled es level => exact hs
  | completed hn hb he =>
    rw [he.frame]
    exact hs
  | served r rest hr ha he => exact he.keeps_fault.trans hs

theorem step_ne_refused {s : State} {r : Refusal} : step s ≠ .refused r := by
  intro h
  rcases Laws.step_cases s with ⟨_, he⟩ | ⟨f, _, he⟩ <;> rw [he] at h
  · unfold ordinaryTurn recordFault at h
    split at h
    · cases h
    · cases h
    · rename_i hr
      exact runEvent_ne_refused hr
  · rcases faultedTurn_cases f s with ⟨_, _, ht⟩ | ⟨_, ht⟩ <;> cases ht.symm.trans h

/-- With no fault recorded, a step answers a next state: a fault that its event raises is recorded in it. -/
theorem step_answers_of_no_fault {s : State} (hf : s.fault = none) : ∃ t, step s = .next t := by
  cases h : step s with
  | next t => exact ⟨t, rfl⟩
  | fault f => exact absurd (step_of_no_fault hf ▸ h) recordFault_ne_fault
  | refused r => exact absurd h step_ne_refused

/-- In a faulted state with no assertion of `rst` to come, the step stops with the fault (R118). -/
theorem step_of_fault_stops {s : State} {f : Fault} (hf : s.fault = some f) (h : Event.pin true ∉ s.agenda) :
    step s = .fault f := by
  simp [step, hf, faultedTurn, afterAssertion_eq_none h]

/-- Settles O38: an event that answers records no fault, one that raises it reads an unwritten element, and a faulted
state takes the next assertion of `rst` or stops. -/
theorem stepStopsOnlyOnUnwrittenElements : Obligations.StepStopsOnlyOnUnwrittenElements := by
  refine ⟨fun s => step_answers_of_no_fault, ?recorded, ?faulted, fun s r => step_ne_refused⟩
  case recorded =>
    intro s t f hf h ht
    rcases step_effect h with he | ⟨g, _, rfl, hfault⟩
    · cases (he.no_fault hf).symm.trans ht
    · cases ht
      exact ⟨rfl, runEvent_eq_fault hfault⟩
  case faulted =>
    intro s f hf
    refine ⟨step_of_fault_stops hf, fun hmem => ?_⟩
    obtain ⟨before, after, ha, hb⟩ := List.eq_append_cons_of_mem hmem
    exact ⟨_, step_of_fault_asserted hf ha hb, rfl, rfl⟩

end Sys2Proof.Machine
end

section
/-! PROOFS. The register map as a whole, and the obligations on accesses that the port rejects, on accesses while
BUSY = 1, on reading back an accepted write, and on the frame of a read (20_memory.md R44 to R54, R58). -/

namespace Sys2Proof.Machine

/-! ### The register map, both ways -/

theorem Target.offset_lt {c : Config} {t : Target} (hc : c.wf) (ht : Mapped c t) : t.offset < 2 ^ 14 := by
  obtain ⟨_, hd, _, hk⟩ := hc
  cases t with
  | data i =>
    have hi : i < c.dmax := ht
    simp only [Target.offset]
    omega
  | key i =>
    have hi : i < c.kmax := ht
    simp only [Target.offset]
    omega
  | x i =>
    simp only [Target.offset]
    omega
  | _ => decide

/-- The offset of a mapped target names it (R44, R45, R46). -/
theorem targetAt_offset {c : Config} {t : Target} (hc : c.wf) (ht : Mapped c t) : targetAt c t.offset = some t := by
  obtain ⟨_, _, h⟩ := checkAccess_eq_some.mp (checkAccess_offset hc ht)
  rwa [BitVec.toNat_ofNat, Nat.mod_eq_of_lt (Target.offset_lt hc ht)] at h

/-- No single register lies between CTRL and N, nor past DLEN (R44). -/
theorem singleAt_eq_none {a : Nat} (h : (0x0018 ≤ a ∧ a < 0x0060) ∨ 0x0098 ≤ a) : singleAt a = none := by
  by_contra hne
  obtain ⟨t, ht⟩ := Option.ne_none_iff_exists'.mp hne
  unfold singleAt at ht
  split at ht <;> cases ht <;> omega

/-- Outside the windows of X, DATA and KEY only the single registers are named (R44). -/
theorem targetAt_eq_singleAt (c : Config) {a : Nat}
    (h : a < 0x0020 ∨ (0x0060 ≤ a ∧ a < 0x1000) ∨ 0x3000 ≤ a) : targetAt c a = singleAt a := by
  rw [targetAt, if_neg (by omega), if_neg (by omega), if_neg (by omega)]

/-- The offsets that R49 lists name nothing, aligned or not. -/
theorem targetAt_unmapped {c : Config} {a : Nat} (h : UnmappedOffset c a) : targetAt c a = none := by
  rcases h with h | h | h | h | h
  · exact (targetAt_eq_singleAt c (by omega)).trans (singleAt_eq_none (by omega))
  · exact (targetAt_eq_singleAt c (by omega)).trans (singleAt_eq_none (by omega))
  · rw [targetAt, if_neg (by omega), if_pos (by omega), if_neg (by omega)]
  · rw [targetAt, if_neg (by omega), if_neg (by omega), if_pos (by omega), if_neg (by omega)]
  · exact (targetAt_eq_singleAt c (by omega)).trans (singleAt_eq_none (by omega))

/-- Settles O16: an offset that names a target is its offset, the offset of a mapped target names it, and the tails are
offsets of R49. -/
theorem registerMapIsExact : Obligations.RegisterMapIsExact := by
  intro c hc
  refine ⟨fun a t ha => ⟨fun h => ⟨offset_of_targetAt h ha, targetAt_mapped h⟩, ?_⟩, fun a h => targetAt_unmapped ?_,
    fun a h => targetAt_unmapped ?_⟩
  · rintro ⟨rfl, ht⟩
    exact targetAt_offset hc ht
  · exact .inr (.inr (.inl h))
  · exact .inr (.inr (.inr (.inl h)))

/-! ### Accesses that the port rejects -/

theorem checkAccess_eq_none {c : Config} {off : Offset} {size : Nat} :
    checkAccess c off size = none ↔ (size = 8 → off.toNat % 8 = 0 → targetAt c off.toNat = none) := by
  simp only [Option.eq_none_iff_forall_ne_some, ne_eq, checkAccess_eq_some, not_and]
  exact ⟨fun h h8 ha t => h t h8 ha, fun h t h8 ha => h h8 ha t⟩

theorem busAccess_read_rejected {s : State} {off : Offset} {size : Nat} (h : checkAccess s.cfg off size = none) :
    busAccess (.read off size) s = .next (s.respond .busErr) := by
  rw [busAccess, h]

theorem busAccess_write_rejected {s : State} {off : Offset} {bytes : List Byte}
    (h : checkAccess s.cfg off bytes.length = none) :
    busAccess (.write off bytes) s = .next (s.respond .busErr) := by
  rw [busAccess, h]

/-- Settles O13: the check of the size fails, whatever the offset. -/
theorem accessOfAnotherSizeGetsBusErr : Obligations.AccessOfAnotherSizeGetsBusErr := fun _ _ =>
  ⟨fun _ h => busAccess_read_rejected (checkAccess_eq_none.mpr fun h8 => absurd h8 h),
    fun _ h => busAccess_write_rejected (checkAccess_eq_none.mpr fun h8 => absurd h8 h)⟩

/-- Settles O14: the check of the alignment fails. -/
theorem misalignedAccessGetsBusErr : Obligations.MisalignedAccessGetsBusErr := by
  intro s off v ha
  have h : checkAccess s.cfg off 8 = none := checkAccess_eq_none.mpr fun _ h0 => absurd h0 ha
  exact ⟨busAccess_read_rejected h, busAccess_write_rejected h⟩

/-- Settles O15: the offset names nothing. -/
theorem unmappedOffsetGetsBusErr : Obligations.UnmappedOffsetGetsBusErr := by
  intro s off v hu
  have h : checkAccess s.cfg off 8 = none := checkAccess_eq_none.mpr fun _ _ => targetAt_unmapped hu
  exact ⟨busAccess_read_rejected h, busAccess_write_rejected h⟩

/-! ### Reads at the offset of a target -/

/-- A read that is not drawn, at the offset of a mapped target that has a value, gets that value (R53, R54). -/
theorem busAccess_readOf_current {s : State} {t : Target} {v : Word} (hc : s.cfg.wf) (hm : Mapped s.cfg t)
    (hd : (s.status.busy && t.drawnWhileBusy) = false) (hv : s.targetValue t = some v) :
    busAccess (readOf t) s = .next (s.respond (.data (lanes v))) := by
  rw [busAccess_readOf (checkAccess_offset hc hm), readTarget_current hd hv]

/-- A read made while BUSY = 1, of a target that is drawn or has no value, gets a free value (R53). -/
theorem readTarget_free {s : State} {t : Target} (hb : s.status.busy = true)
    (h : t.drawnWhileBusy = true ∨ s.targetValue t = none) : readTarget t s = .next s.respondFree := by
  cases hd : t.drawnWhileBusy with
  | true => simp [readTarget, hb, hd]
  | false =>
    have hv : s.targetValue t = none := h.resolve_left (by simp [hd])
    simp [readTarget, hb, hd, hv]

theorem busAccess_readOf_free {s : State} {t : Target} (hc : s.cfg.wf) (hm : Mapped s.cfg t)
    (hb : s.status.busy = true) (h : t.drawnWhileBusy = true ∨ s.targetValue t = none) :
    busAccess (readOf t) s = .next s.respondFree := by
  rw [busAccess_readOf (checkAccess_offset hc hm), readTarget_free hb h]

/-- A host access made while BUSY = 1 never faults (R53). -/
theorem busAccess_answers_of_busy {s : State} (r : Request) (hb : s.status.busy = true) :
    ∃ t, busAccess r s = .next t := by
  cases h : busAccess r s with
  | next t => exact ⟨t, rfl⟩
  | fault f =>
    obtain ⟨_, _, _, _, _, hidle, _⟩ := busAccess_eq_fault h
    exact absurd (hb.symm.trans hidle) (by decide)
  | refused e => exact absurd h busAccess_ne_refused

/-- Settles O20: X, AFAINV and DATA are drawn, an unwritten KEY element has no value, and every other target answers
its value. -/
theorem readsWhileBusyAreFreeOrCurrent : Obligations.ReadsWhileBusyAreFreeOrCurrent := by
  intro s hc hb
  have current {t : Target} {v : Word} (hm : Mapped s.cfg t) (hd : t.drawnWhileBusy = false)
      (hv : s.targetValue t = some v) : busAccess (readOf t) s = .next (s.respond (.data (lanes v))) :=
    busAccess_readOf_current hc hm (by rw [hd, Bool.and_false]) hv
  refine ⟨?drawn, current trivial rfl rfl, current trivial rfl rfl, current trivial rfl rfl, current trivial rfl rfl,
    current trivial rfl rfl, current trivial rfl rfl, current trivial rfl rfl, current trivial rfl rfl,
    current trivial rfl rfl, fun i w hi hw => current (t := .key i) hi rfl hw,
    fun i hi hu => busAccess_readOf_free (t := .key i) hc hi hb (.inr hu),
    fun off size => busAccess_answers_of_busy _ hb⟩
  case drawn =>
    intro t hm ht
    have hd : t.drawnWhileBusy = true := by rcases ht with ⟨i, rfl⟩ | rfl | ⟨i, rfl⟩ <;> rfl
    exact busAccess_readOf_free hc hm hb (.inl hd)

/-- Settles O28: of what one access can answer, only the cases of a read apply, and they change the response and, while
BUSY = 1, the count of draws. -/
theorem hostReadChangesNothing : Obligations.HostReadChangesNothing := by
  intro s t off size h
  rcases busAccess_eq_next h with rfl | ⟨_, _, _, _, _, _, _, rfl⟩ | ⟨_, _, _, hb, rfl⟩ | ⟨_, _, _, hr, _⟩ |
    ⟨_, _, _, hr, _⟩
  · exact ⟨rfl, fun _ => rfl⟩
  · exact ⟨rfl, fun _ => rfl⟩
  · exact ⟨rfl, fun hidle => absurd (hb.symm.trans hidle) (by decide)⟩
  · cases hr
  · cases hr

/-! ### Writes at the offset of a target -/

theorem storeTarget_readOnly {t : Target} {s : State} (v : Word) (hro : t.readOnly = true) :
    storeTarget t v s = s.respond .busErr := by
  simp [storeTarget, hro]

/-- Settles O17: AFAINV is the read-only target, CMD holds no value and is not drawn, and STATUS is never dropped. -/
theorem afainvIsReadOnlyAndCmdReadsZero : Obligations.AfainvIsReadOnlyAndCmdReadsZero := by
  intro s v
  refine ⟨?write, ?read, statusWriteClearsDoneAndBovrOnly s v⟩
  case write =>
    rw [busAccess_writeOf v (checkAccess_offset_register _ (by decide)), storeTarget_readOnly v rfl]
    rfl
  case read =>
    rw [busAccess_readOf (checkAccess_offset_register _ (by decide)), readTarget_current (Bool.and_false _) rfl]
    rfl

/-- R52: the targets whose write is dropped while BUSY = 1 are all but STATUS, CTRL and the read-only AFAINV. -/
theorem Target.droppedWhileBusy_of_ne {t : Target} (hstatus : t ≠ .status) (hctrl : t ≠ .ctrl)
    (hafainv : t ≠ .afainv) :
    t.droppedWhileBusy = true ∧ t.readOnly = false := by
  cases t with
  | status => exact absurd rfl hstatus
  | ctrl => exact absurd rfl hctrl
  | afainv => exact absurd rfl hafainv
  | _ => exact ⟨rfl, rfl⟩

/-- Settles O19: a dropped write sets BOVR alone; STATUS and CTRL are never dropped. -/
theorem writesWhileBusyAreDropped : Obligations.WritesWhileBusyAreDropped := by
  intro s v hc hb
  refine ⟨?dropped, statusWriteClearsDoneAndBovrOnly s v, ?ctrl⟩
  case dropped =>
    intro t hm hstatus hctrl hafainv
    obtain ⟨hd, hro⟩ := Target.droppedWhileBusy_of_ne hstatus hctrl hafainv
    rw [busAccess_writeOf v (checkAccess_offset hc hm), storeTarget_dropped hro hb hd]
    rfl
  case ctrl =>
    obtain ⟨_, hw, rfl, _⟩ := ctrlHoldsTheInterruptEnableOnly.2 s v
    exact hw

/-- The port's answer is no target's value. -/
theorem State.targetValue_respond (s : State) (r : Response) (t : Target) :
    (s.respond r).targetValue t = s.targetValue t := by
  cases t <;> rfl

/-- Settles O21: an accepted write leaves the parameters and BUSY, and its target has the value written. -/
theorem acceptedWriteIsReadBack : Obligations.AcceptedWriteIsReadBack := by
  intro s t v hc hm hs hb
  refine ⟨_, busAccess_writeOf_storable v hc hm hs hb, rfl, ?_⟩
  obtain ⟨_, _, _, hcfg, _⟩ := State.writeTarget_frame (s := s) v hs.1
  have hbusy : (s.writeTarget v t).status.busy = false := by rw [State.writeTarget_status v hs]; exact hb
  have hvalue : (s.writeTarget v t).targetValue t = some v :=
    (State.targetValue_writeTarget v hc hm hm hs hs.2.1).trans (if_pos rfl)
  refine busAccess_readOf_current ?_ ?_ ?_ ((State.targetValue_respond _ _ _).trans hvalue)
  · rw [State.respond_cfg, hcfg]
    exact hc
  · rw [State.respond_cfg, hcfg]
    exact hm
  · rw [State.respond_status, hbusy, Bool.false_and]

end Sys2Proof.Machine
end

section
/-! PROOFS. A word is its fields, and the obligations on the decoder: the two round trips, the mask and match rows, the
clauses of legality, and the completion of an illegal word (30_encoding.md R65 to R73; 60_exceptions.md R102). -/

namespace Sys2Proof

/-! ### A word is its fields -/

/-- Two joined words are equal exactly when their halves are. -/
theorem append_eq_append_iff {m n : Nat} {a c : BitVec m} {b d : BitVec n} :
    a ++ b = c ++ d ↔ a = c ∧ b = d := by
  constructor
  · intro h
    have hb : b = d := by rw [← BitVec.setWidth_append_eq_right (a := a) (b := b), h, BitVec.setWidth_append_eq_right]
    subst hb
    exact ⟨(BitVec.append_left_inj b).mp h, rfl⟩
  · rintro ⟨rfl, rfl⟩
    rfl

/-- The low half of a CMD write is the bit picture of R67. -/
theorem setWidth_eq_fields (v : Word) :
    v.setWidth 32 = rsvField v ++ rs3Field v ++ rs2Field v ++ rs1Field v ++ rdField v ++ opField v := by
  simp only [rsvField, rs3Field, rs2Field, rs1Field, rdField, opField,
    BitVec.extractLsb'_append_extractLsb'_eq_extractLsb', BitVec.setWidth_eq_extractLsb' (show 32 ≤ 64 by decide)]

/-- A CMD write whose upper half is 0 carries its low half (R66). -/
theorem cmdWrite_setWidth {v : Word} (hu : upperField v = 0) : cmdWrite (v.setWidth 32) = v := by
  have hlow : v.toNat < 2 ^ 32 := by
    have h := congrArg BitVec.toNat hu
    simp only [upperField, BitVec.extractLsb'_toNat, Nat.shiftRight_eq_div_pow,
      show (0 : BitVec 32).toNat = 0 from rfl] at h
    omega
  apply BitVec.eq_of_toNat_eq
  simp only [cmdWrite, BitVec.toNat_setWidth]
  omega

/-- A word whose upper half and reserved field are 0 is the packing of its own fields (R66, R67). -/
theorem cmdWrite_packFields_fields {v : Word} (hu : upperField v = 0) (hr : rsvField v = 0) :
    cmdWrite (packFields (rs3Field v) (rs2Field v) (rs1Field v) (rdField v) (opField v)) = v := by
  rw [packFields, ← hr, ← setWidth_eq_fields, cmdWrite_setWidth hu]

/-! ### What a word that decodes is -/

theorem formatZ_eq_ok {v : Word} {j i : Instr} :
    formatZ v j = .ok i ↔ (rdField v = 0 ∧ rs1Field v = 0 ∧ rs2Field v = 0 ∧ rs3Field v = 0) ∧ j = i := by
  unfold formatZ
  split <;> simp_all

theorem formatR2_eq_ok {v : Word} {j : RegIdx → RegIdx → RegIdx → Instr} {i : Instr} :
    formatR2 v j = .ok i ↔ rs3Field v = 0 ∧ j (regOf (rdField v)) (regOf (rs1Field v)) (regOf (rs2Field v)) = i := by
  unfold formatR2
  split <;> simp_all

theorem formatR3_eq_ok {v : Word} {j : RegIdx → RegIdx → RegIdx → RegIdx → Instr} {i : Instr} :
    formatR3 v j = .ok i ↔
      j (regOf (rdField v)) (regOf (rs1Field v)) (regOf (rs2Field v)) (regOf (rs3Field v)) = i := by
  simp [formatR3]

theorem checkWellFormed_eq_ok {d : Except Illegal Instr} {i : Instr} :
    checkWellFormed d = .ok i ↔ d = .ok i ∧ i.wellFormed = true := by
  cases d with
  | error e => simp [checkWellFormed]
  | ok j =>
    cases hj : j.wellFormed <;> simpa [checkWellFormed, hj] using fun hji => hji ▸ hj

/-- A word decodes exactly when its upper half and its reserved field are 0 and its opcode's row accepts it (R72). -/
theorem decode_eq_ok {v : Word} {i : Instr} :
    decode v = .ok i ↔ upperField v = 0 ∧ rsvField v = 0 ∧ decodeOpcode v = .ok i := by
  unfold decode
  split
  · simp_all
  · split <;> simp_all

/-- The row of an opcode gives a well-formed command whose word is the packing of the fields (R68, R71). -/
theorem encode_of_decodeOpcode {v : Word} {i : Instr} (h : decodeOpcode v = .ok i) :
    i.wellFormed = true ∧
      encode i = packFields (rs3Field v) (rs2Field v) (rs1Field v) (rdField v) (opField v) := by
  unfold decodeOpcode at h
  split at h
  case h_1 | h_7 | h_8 | h_9 | h_10 | h_11 | h_12 | h_13 =>
    rename_i hop
    obtain ⟨⟨hrd, hrs1, hrs2, hrs3⟩, rfl⟩ := formatZ_eq_ok.mp h
    rw [hrd, hrs1, hrs2, hrs3]
    exact ⟨rfl, congrArg (packFields 0 0 0 0) (BitVec.eq_of_toNat_eq hop.symm)⟩
  case h_2 | h_3 | h_5 =>
    rename_i hop
    obtain ⟨hrs3, rfl⟩ := formatR2_eq_ok.mp h
    rw [hrs3]
    exact ⟨rfl, congrArg (packFields 0 _ _ _) (BitVec.eq_of_toNat_eq hop.symm)⟩
  case h_4 hop =>
    obtain ⟨hfields, hwf⟩ := checkWellFormed_eq_ok.mp h
    obtain ⟨hrs3, rfl⟩ := formatR2_eq_ok.mp hfields
    rw [hrs3]
    exact ⟨hwf, congrArg (packFields 0 _ _ _) (BitVec.eq_of_toNat_eq hop.symm)⟩
  case h_6 hop =>
    obtain rfl := formatR3_eq_ok.mp h
    exact ⟨rfl, congrArg (packFields _ _ _ _) (BitVec.eq_of_toNat_eq hop.symm)⟩
  case h_14 => cases h

/-- The decoder and the encoder are inverse: a word decodes to a command exactly when the command is well-formed and the
word is its encoding (R65 to R72). -/
theorem decode_eq_ok_iff_encode {v : Word} {i : Instr} :
    decode v = .ok i ↔ i.wellFormed = true ∧ cmdWrite (encode i) = v := by
  constructor
  · intro h
    obtain ⟨hupper, hrsv, hop⟩ := decode_eq_ok.mp h
    obtain ⟨hwf, henc⟩ := encode_of_decodeOpcode hop
    exact ⟨hwf, by rw [henc, cmdWrite_packFields_fields hupper hrsv]⟩
  · rintro ⟨hwf, rfl⟩
    exact decode_cmdWrite_encode hwf

/-- Settles O2: the round trip from a command. -/
theorem decodeOfEncodeIsTheCommand : Obligations.DecodeOfEncodeIsTheCommand := by
  intro i hwf
  exact decode_cmdWrite_encode hwf

/-- Settles O3: the round trip from a word. -/
theorem decodedWordIsItsEncoding : Obligations.DecodedWordIsItsEncoding := by
  intro v i h
  exact decode_eq_ok_iff_encode.mp h

/-- Settles O1: the decoder, evaluated on each word. -/
theorem specWordsDecodeToTheirCommands : Obligations.SpecWordsDecodeToTheirCommands :=
  ⟨rfl, rfl, rfl, rfl, rfl, rfl, rfl, rfl, rfl, rfl, rfl, rfl, rfl, rfl, rfl⟩

/-! ### The clauses of legality -/

/-- The opcode's row accepts a word exactly when R72's clauses (1), (3) and (4) hold of it. -/
theorem exists_decodeOpcode_eq_ok {v : Word} :
    (∃ i, decodeOpcode v = .ok i) ↔
      (opField v).toNat ∈ [0x00, 0x01, 0x02, 0x03, 0x04, 0x05, 0x10, 0x11, 0x12, 0x13, 0x14, 0x15, 0x16] ∧
        ((opField v).toNat ∈ [0x01, 0x02, 0x03, 0x04] → rs3Field v = 0) ∧
        ((opField v).toNat ∈ [0x00, 0x10, 0x11, 0x12, 0x13, 0x14, 0x15, 0x16] →
          rdField v = 0 ∧ rs1Field v = 0 ∧ rs2Field v = 0 ∧ rs3Field v = 0) ∧
        ((opField v).toNat = 0x03 → (rdField v).toNat ≤ 5) := by
  unfold decodeOpcode
  split
  case h_1 | h_7 | h_8 | h_9 | h_10 | h_11 | h_12 | h_13 =>
    rename_i hop
    simp [hop, formatZ_eq_ok]
  case h_2 | h_3 | h_5 =>
    rename_i hop
    simp [hop, formatR2_eq_ok]
  case h_4 hop =>
    simp [hop, formatR2_eq_ok, checkWellFormed_eq_ok, Instr.wellFormed, regOf]
  case h_6 hop =>
    simp [hop, formatR3_eq_ok]
  case h_14 =>
    simp only [reduceCtorEq, exists_false, false_iff, List.mem_cons, List.not_mem_nil]
    tauto

/-- A word decodes exactly when the five clauses of R72 hold of it. -/
theorem exists_decode_eq_ok {v : Word} : (∃ i, decode v = .ok i) ↔ Machine.LegalWord v := by
  simp only [decode_eq_ok, exists_and_left, exists_decodeOpcode_eq_ok, Machine.LegalWord]
  tauto

/-! ### Mask and match -/

/-- The opcode of a command's word is the command's (R67, R71). -/
theorem opField_encode (i : Instr) : opField (cmdWrite (encode i)) = i.opcode := by
  cases i <;> exact Laws.OpcodeField.op_of_packFields _ _ _ _ _

/-- An opcode alone, as a bit picture of R67. -/
theorem setWidth_eq_packFields (op : BitVec 8) : op.setWidth 32 = packFields 0 0 0 0 op := by
  rw [BitVec.setWidth_eq_append (by decide)]
  rfl

section
variable (v : Word) (op : BitVec 8) (m3 m2 m1 md : BitVec 3)

/-- A mask is met field by field: the words are compared as the joined fields they are. -/
theorem fields_and_eq_iff :
    (rsvField v ++ rs3Field v ++ rs2Field v ++ rs1Field v ++ rdField v ++ opField v) &&&
          (BitVec.allOnes 12 ++ m3 ++ m2 ++ m1 ++ md ++ BitVec.allOnes 8) =
        (0 : BitVec 12) ++ (0 : BitVec 3) ++ (0 : BitVec 3) ++ (0 : BitVec 3) ++ (0 : BitVec 3) ++ op ↔
      opField v = op ∧ rsvField v = 0 ∧ rs3Field v &&& m3 = 0 ∧ rs2Field v &&& m2 = 0 ∧ rs1Field v &&& m1 = 0 ∧
        rdField v &&& md = 0 := by
  simp only [BitVec.and_append, append_eq_append_iff, BitVec.and_allOnes]
  tauto

/-- R71's match, field by field, for a mask with ones at OP and RSV. -/
theorem and_mask_eq_opcode_iff :
    v.setWidth 32 &&& (BitVec.allOnes 12 ++ m3 ++ m2 ++ m1 ++ md ++ BitVec.allOnes 8) = op.setWidth 32 ↔
      opField v = op ∧ rsvField v = 0 ∧ rs3Field v &&& m3 = 0 ∧ rs2Field v &&& m2 = 0 ∧ rs1Field v &&& m1 = 0 ∧
        rdField v &&& md = 0 := by
  rw [setWidth_eq_fields, setWidth_eq_packFields]
  exact fields_and_eq_iff v op m3 m2 m1 md

end

/-- Format Z: the mask takes every field (R71). -/
theorem and_maskZ_eq_opcode_iff {v : Word} {op : BitVec 8} :
    v.setWidth 32 &&& 0xFFFFFFFF = op.setWidth 32 ↔
      opField v = op ∧ rsvField v = 0 ∧ rdField v = 0 ∧ rs1Field v = 0 ∧ rs2Field v = 0 ∧ rs3Field v = 0 := by
  refine (and_mask_eq_opcode_iff v op (.allOnes 3) (.allOnes 3) (.allOnes 3) (.allOnes 3)).trans ?_
  simp only [BitVec.and_allOnes]
  tauto

/-- Format R2: the mask leaves RD, RS1 and RS2 out (R71). -/
theorem and_maskR2_eq_opcode_iff {v : Word} {op : BitVec 8} :
    v.setWidth 32 &&& 0xFFFE00FF = op.setWidth 32 ↔ opField v = op ∧ rsvField v = 0 ∧ rs3Field v = 0 := by
  refine (and_mask_eq_opcode_iff v op (.allOnes 3) 0 0 0).trans ?_
  rw [BitVec.and_allOnes]
  simp

/-- Format R3: the mask leaves every register field out (R71). -/
theorem and_maskR3_eq_opcode_iff {v : Word} {op : BitVec 8} :
    v.setWidth 32 &&& 0xFFF000FF = op.setWidth 32 ↔ opField v = op ∧ rsvField v = 0 := by
  refine (and_mask_eq_opcode_iff v op 0 0 0 0).trans ?_
  simp

/-- The word of a command matches the command's row (R71). -/
theorem encode_matches (i : Instr) :
    (cmdWrite (encode i)).setWidth 32 &&& i.mask = i.opcode.setWidth 32 := by
  cases i
  case nop | shenc | shdec | afcfg | afenc | afdec | paenc | padec =>
    exact and_maskZ_eq_opcode_iff.mpr (by simp [encode, fields_of_packFields])
  case mod | gcd | extgcd | modinv =>
    exact and_maskR2_eq_opcode_iff.mpr (by simp [encode, fields_of_packFields])
  case modpow =>
    exact and_maskR3_eq_opcode_iff.mpr (by simp [encode, fields_of_packFields])

/-- A word that matches a command's row, with RD at most 5 for EXTGCD, is legal once its upper half is 0 (R71, R72). -/
theorem legalWord_of_matches {v : Word} {i : Instr} (hu : upperField v = 0)
    (hm : v.setWidth 32 &&& i.mask = i.opcode.setWidth 32) (hrd : i.opcode = 0x03 → (rdField v).toNat ≤ 5) :
    Machine.LegalWord v := by
  cases i
  case nop | shenc | shdec | afcfg | afenc | afdec | paenc | padec =>
    obtain ⟨hop, hrsv, hfields⟩ := and_maskZ_eq_opcode_iff.mp hm
    simp [Machine.LegalWord, hop, hrsv, hfields, hu, Instr.opcode]
  case mod | gcd | modinv =>
    obtain ⟨hop, hrsv, hrs3⟩ := and_maskR2_eq_opcode_iff.mp hm
    simp [Machine.LegalWord, hop, hrsv, hrs3, hu, Instr.opcode]
  case extgcd =>
    obtain ⟨hop, hrsv, hrs3⟩ := and_maskR2_eq_opcode_iff.mp hm
    simp [Machine.LegalWord, hop, hrsv, hrs3, hu, Instr.opcode, hrd rfl]
  case modpow =>
    obtain ⟨hop, hrsv⟩ := and_maskR3_eq_opcode_iff.mp hm
    simp [Machine.LegalWord, hop, hrsv, hu, Instr.opcode]

/-- Settles O4: a word that decodes is the encoding of its command, which matches the command's own row. -/
theorem decodingAgreesWithMatchAndMask : Obligations.DecodingAgreesWithMatchAndMask := by
  refine ⟨fun v => ⟨?row, ?decodes⟩, ?opcode⟩
  case row =>
    rintro ⟨i, h⟩
    obtain ⟨_, _, _, _, hrd, hu⟩ := exists_decode_eq_ok.mp ⟨i, h⟩
    obtain ⟨_, rfl⟩ := decode_eq_ok_iff_encode.mp h
    refine ⟨hu, i, encode_matches i, fun hop => hrd ?_⟩
    rw [opField_encode, hop]
    rfl
  case decodes =>
    rintro ⟨hu, i, hm, hrd⟩
    exact exists_decode_eq_ok.mpr (legalWord_of_matches hu hm hrd)
  case opcode =>
    intro v i h
    obtain ⟨_, rfl⟩ := decode_eq_ok_iff_encode.mp h
    exact (opField_encode i).symm

end Sys2Proof

namespace Sys2Proof.Machine

/-- An illegal word in flight completes with ILLEGAL (R102). -/
theorem engineTurn_of_illegal {s : State} (hb : s.status.busy = true) (hl : ¬LegalWord s.inflight) :
    engineTurn s = raise .illegal s := by
  rcases engineTurn_cases s with ⟨hb', _⟩ | ⟨_, _, _, h⟩ | ⟨_, i, hd, _⟩
  · simp [hb] at hb'
  · exact h
  · exact absurd (exists_decode_eq_ok.mp ⟨i, hd⟩) hl

/-- Any word written to CMD while BUSY = 0 is issued (R101). -/
theorem busAccess_cmdWrite_idle {s : State} (v : Word) (hb : s.status.busy = false) :
    busAccess (writeOf .cmd v) s = .next ((s.issue v).respond .okay) := by
  rw [busAccess_writeOf v (checkAccess_offset_register _ (by decide)), storeTarget_accepted rfl (by simp [hb])]
  rfl

/-- A command that raises an error has failed with it and changed STATUS alone (R104). -/
theorem failedWith_raise (e : ErrCode) (s : State) :
    ∃ t, raise e s = .next t ∧ FailedWith e s t :=
  ⟨_, rfl, rfl, rfl, rfl, rfl, rfl, rfl, rfl⟩

/-- Settles O5: legality is decoding, every word is accepted while BUSY = 0, and the ENGINE raises ILLEGAL. -/
theorem illegalWordCompletesWithIllegal : Obligations.IllegalWordCompletesWithIllegal := by
  refine ⟨fun v => exists_decode_eq_ok, ?accepted, ?completes⟩
  case accepted =>
    intro s v _ hb
    exact ⟨_, busAccess_cmdWrite_idle v hb, rfl, rfl, rfl⟩
  case completes =>
    intro s hb hl
    rw [engineTurn_of_illegal hb hl]
    exact failedWith_raise .illegal s

end Sys2Proof.Machine
end

section
/-! PROOFS. The number-theory commands: their words, what they ignore, and what each writes and leaves alone
(30_encoding.md R68, R71; 40_number_theory.md R75 to R82). -/

namespace Sys2Proof

/-- The word of a command, masked as in R71, is its opcode. -/
theorem encode_and_mask (i : Instr) : encode i &&& i.mask = i.opcode.setWidth 32 := by
  have h := encode_matches i
  rwa [cmdWrite, BitVec.setWidth_setWidth_of_le _ (by decide), BitVec.setWidth_eq] at h

end Sys2Proof

namespace Sys2Proof.Machine

/-! ### Cipher state -/

/-- Settles O36: a number-theory command's outcome is a function of X, and it writes X and STATUS alone. -/
theorem numberTheoryIgnoresCipherState : Obligations.NumberTheoryIgnoresCipherState := by
  intro i s t n shk afa afb afainv klen dlen m b hi h
  have hs : i ∉ sequenceCommands := by
    intro hmem
    simp only [sequenceCommands, List.mem_cons, List.not_mem_nil, or_false] at hmem
    rcases hmem with rfl | rfl | rfl | rfl | rfl | rfl <;> cases hi
  have ha : i ≠ .afcfg := by
    rintro rfl
    cases hi
  rcases exec_operands hs ha s with ⟨e, ho⟩ | ⟨y, ho⟩
  · cases (ho s rfl).symm.trans h
    exact ho _ rfl
  · cases (ho s rfl).symm.trans h
    exact ho _ rfl

/-! ### The two ends of a number-theory command -/

/-- A command whose outcome is the error e fails with e. -/
theorem fails_of_raise {i : Instr} {e : ErrCode} {s : State} (h : exec i s = raise e s) : Fails i e s := by
  rw [Fails, h]
  exact failedWith_raise e s

/-- A command that completes with the operand registers ds written has written those only. -/
theorem wroteOnly_of_complete {ds : List RegIdx} {s u : State} (hu : u = { s with x := u.x })
    (hds : ∀ r, r ∉ ds → u.readX r = s.readX r) :
    ∃ t, complete u = .next t ∧ WroteOnly ds s t ∧ ∀ r, t.xInt r = u.xInt r := by
  rw [hu] at hds ⊢
  exact ⟨_, rfl, ⟨⟨rfl, rfl, rfl, rfl, rfl, rfl⟩, rfl, hds, fun _ => rfl⟩, fun _ => rfl⟩

/-- A value whose magnitude is at most a register's value fits a register. -/
theorem sint_enc_of_abs_le {s : State} {r : RegIdx} {z : Int} (h : |z| ≤ s.xInt r) : sint (enc z) = z := by
  obtain ⟨hlow, hhigh⟩ := abs_le.mp h
  have hr : s.xInt r < 2 ^ 63 := sint_upper _
  exact sint_enc (by omega) (by omega)

theorem State.xInt_writeX (s : State) (i j : RegIdx) (w : Word) :
    (s.writeX i w).xInt j = if i = j then sint w else s.xInt j := by
  rw [State.xInt, State.readX_writeX]
  split <;> rfl

/-- A command that completes with X[RD] written: a value between 0 and a register's value arrives as it is, and no other
register is written (R75). -/
theorem writeX_wroteOnly {s : State} {r : RegIdx} {z : Int} (rd : RegIdx) (h0 : 0 ≤ z) (hz : z ≤ s.xInt r) :
    ∃ t, complete (s.writeX rd (enc z)) = .next t ∧ WroteOnly [rd] s t ∧ t.xInt rd = z := by
  obtain ⟨t, ht, hw, hx⟩ := wroteOnly_of_complete (ds := [rd]) (s := s) (u := s.writeX rd (enc z)) rfl
    fun j hj => s.readX_writeX_other _ (List.mem_singleton.not.mp hj)
  refine ⟨t, ht, hw, ?_⟩
  rw [hx, State.xInt_writeX, if_pos rfl, sint_enc_of_abs_le (by rwa [abs_of_nonneg h0])]

/-! ### MOD and GCD -/

/-- Settles O41: the residue is below b, so it fits a register, and a - mod(a, b) is a multiple of b. -/
theorem modWritesTheCanonicalResidue : Obligations.ModWritesTheCanonicalResidue := by
  intro rd rs1 rs2 s
  refine ⟨encode_and_mask (.mod rd rs1 rs2), ?positive, fun hb => fails_of_raise (if_pos hb)⟩
  case positive =>
    intro hb
    have hnonneg : 0 ≤ modZ (s.xInt rs1) (s.xInt rs2) := modZ_nonneg hb
    have hlt : modZ (s.xInt rs1) (s.xInt rs2) < s.xInt rs2 := modZ_lt hb
    obtain ⟨t, ht, hw, hx⟩ := writeX_wroteOnly rd hnonneg hlt.le
    refine ⟨t, (if_neg (by omega)).trans ht, hw, ?_⟩
    rw [hx]
    exact ⟨hnonneg, hlt, Int.dvd_self_sub_emod⟩

/-- Settles O42: the iteration computes the gcd, which every common divisor divides and which is at most a and b. -/
theorem gcdWritesTheGreatestCommonDivisor : Obligations.GcdWritesTheGreatestCommonDivisor := by
  intro rd rs1 rs2 s
  refine ⟨encode_and_mask (.gcd rd rs1 rs2), ?positive, fun h => fails_of_raise (if_pos h)⟩
  case positive =>
    intro ha hb
    have hg := gcdZ_eq ha hb
    have hpos : 0 < (Int.gcd (s.xInt rs1) (s.xInt rs2) : Int) := by
      exact_mod_cast Int.gcd_pos_of_ne_zero_left _ ha.ne'
    have hle1 := Int.le_of_dvd ha (Int.gcd_dvd_left (s.xInt rs1) (s.xInt rs2))
    have hle2 := Int.le_of_dvd hb (Int.gcd_dvd_right (s.xInt rs1) (s.xInt rs2))
    obtain ⟨t, ht, hw, hx⟩ := writeX_wroteOnly rd (hg ▸ hpos.le) (hg ▸ hle1)
    refine ⟨t, (if_neg (by omega)).trans ht, hw, ?_⟩
    rw [hx, hg]
    exact ⟨hpos, le_min hle1 hle2, Int.gcd_dvd_left .., Int.gcd_dvd_right ..,
      fun d hda hdb => Int.le_of_dvd hpos (Int.dvd_coe_gcd hda hdb)⟩

/-! ### EXTGCD -/

/-- The three destinations of EXTGCD are three registers. -/
theorem tripleDestinations_ne (rd : RegIdx) : rd + 1 ≠ rd ∧ rd + 2 ≠ rd ∧ rd + 2 ≠ rd + 1 := by
  revert rd
  decide

theorem State.xInt_writeTriple (s : State) (rd : RegIdx) (p : Int × Int × Int) :
    (s.writeTriple rd p).xInt rd = sint (enc p.1) ∧ (s.writeTriple rd p).xInt (rd + 1) = sint (enc p.2.1) ∧
      (s.writeTriple rd p).xInt (rd + 2) = sint (enc p.2.2) := by
  obtain ⟨h1, h2, h3⟩ := tripleDestinations_ne rd
  simp [State.writeTriple, State.xInt_writeX, h1, h2, h3]

theorem State.readX_writeTriple_other (s : State) {rd r : RegIdx} (p : Int × Int × Int)
    (hr : r ∉ [rd, rd + 1, rd + 2]) : (s.writeTriple rd p).readX r = s.readX r := by
  simp only [List.mem_cons, List.not_mem_nil, or_false, not_or] at hr
  obtain ⟨h0, h1, h2⟩ := hr
  rw [State.writeTriple, State.readX_writeX_other _ _ h2, State.readX_writeX_other _ _ h1,
    State.readX_writeX_other _ _ h0]

/-- A bound on g * |z| is one on |z|, when g is positive. -/
theorem abs_le_of_mul_abs_le {g z c : Int} (hg : 0 < g) (h : g * |z| ≤ c) : |z| ≤ c :=
  (le_mul_of_one_le_left (abs_nonneg z) hg).trans h

/-- EXTGCD of two positive operands completes with the triple of R80 in its three destinations, each of which fits its
register, and writes nothing else. -/
theorem execExtgcd_of_pos {rd rs1 rs2 : RegIdx} {s : State} (hrd : rd.val ≤ 5) (ha : 0 < s.xInt rs1)
    (hb : 0 < s.xInt rs2) :
    ∃ t, exec (.extgcd rd rs1 rs2) s = .next t ∧ WroteOnly [rd, rd + 1, rd + 2] s t ∧
      (t.xInt rd, t.xInt (rd + 1), t.xInt (rd + 2)) = extTriple (s.xInt rs1) (s.xInt rs2) := by
  have hrun : exec (.extgcd rd rs1 rs2) s =
      complete (s.writeTriple rd (extTriple (s.xInt rs1) (s.xInt rs2))) :=
    (if_neg (by omega)).trans (if_neg (by omega))
  have hgcd := extTriple_gcd ha hb
  have hpos : 0 < (extTriple (s.xInt rs1) (s.xInt rs2)).1 := by
    rw [hgcd]
    exact_mod_cast Int.gcd_pos_of_ne_zero_left _ ha.ne'
  have hle : (extTriple (s.xInt rs1) (s.xInt rs2)).1 ≤ s.xInt rs1 := by
    rw [hgcd]
    exact Int.le_of_dvd ha (Int.gcd_dvd_left ..)
  obtain ⟨hx, hy⟩ := extTriple_bounds ha hb
  obtain ⟨t, ht, hw, hxInt⟩ := wroteOnly_of_complete (ds := [rd, rd + 1, rd + 2]) (s := s)
    (u := s.writeTriple rd (extTriple (s.xInt rs1) (s.xInt rs2))) rfl fun _ => s.readX_writeTriple_other _
  obtain ⟨e0, e1, e2⟩ := s.xInt_writeTriple rd (extTriple (s.xInt rs1) (s.xInt rs2))
  refine ⟨t, hrun.trans ht, hw, ?_⟩
  rw [hxInt, hxInt, hxInt, e0, e1, e2, sint_enc_of_abs_le ((abs_of_pos hpos).trans_le hle),
    sint_enc_of_abs_le (abs_le_of_mul_abs_le hpos hx), sint_enc_of_abs_le (abs_le_of_mul_abs_le hpos hy)]

/-- Settles O43: the triple's gcd, Bézout equation and bounds, read off the three registers it is written to. -/
theorem extgcdWritesGcdAndBezoutPair : Obligations.ExtgcdWritesGcdAndBezoutPair := by
  intro rd rs1 rs2 s
  refine ⟨encode_and_mask (.extgcd rd rs1 rs2), ?positive, ?domain, fun hrd => fails_of_raise (if_pos hrd)⟩
  case positive =>
    intro hrd ha hb
    obtain ⟨t, ht, hw, htriple⟩ := execExtgcd_of_pos hrd ha hb
    have hgcd := extTriple_gcd ha hb
    have hbezout := extTriple_bezout ha hb
    have hbounds := extTriple_bounds ha hb
    rw [← htriple] at hgcd hbezout hbounds
    exact ⟨t, ht, hw, hgcd, hbezout.trans hgcd.symm, hbounds⟩
  case domain =>
    intro hrd h
    exact fails_of_raise ((if_neg (by omega)).trans (if_pos h))

/-! ### The triple as a recursion -/

theorem extLoop_zero (k : Nat) (r0 s0 s1 t0 t1 : Int) : extLoop k r0 0 s0 s1 t0 t1 = (r0, s0, t0) := by
  cases k <;> rfl

theorem extRec_zero (k : Nat) (a : Int) : extRec k a 0 = (a, 1, 0) := by
  cases k <;> rfl

/-- The loop of R80 applies the coefficients that the recursion gives for (r0, r1) to the columns it starts from. Any
fuel of at least r1 is enough for either. -/
theorem extLoop_eq_extRec {j k : Nat} {r0 r1 s0 s1 t0 t1 : Int} (h1 : 0 ≤ r1) (hj : r1.toNat ≤ j)
    (hk : r1.toNat ≤ k) :
    extLoop j r0 r1 s0 s1 t0 t1 =
      ((extRec k r0 r1).1, (extRec k r0 r1).2.1 * s0 + (extRec k r0 r1).2.2 * s1,
        (extRec k r0 r1).2.1 * t0 + (extRec k r0 r1).2.2 * t1) := by
  induction k generalizing j r0 r1 s0 s1 t0 t1 with
  | zero =>
    obtain rfl : r1 = 0 := by omega
    simp [extLoop_zero, extRec_zero]
  | succ k ih =>
    by_cases hr : r1 = 0
    · subst hr
      simp [extLoop_zero, extRec_zero]
    · obtain ⟨j, rfl⟩ : ∃ l, j = l + 1 := ⟨j - 1, by omega⟩
      have hnonneg := modZ_nonneg (a := r0) (b := r1) (by omega)
      have hlt := modZ_lt (a := r0) (b := r1) (by omega)
      rw [extLoop, if_neg hr, sub_divZ_mul, ih hnonneg (by omega) (by omega), extRec, if_neg hr, modZ_eq, divZ_eq]
      ext
      · rfl
      · ring
      · ring

/-- The triple of R80 is that of the recursion, for every fuel of at least b. -/
theorem extTriple_eq_extRec {k : Nat} {a b : Int} (hb : 0 ≤ b) (hk : b.toNat ≤ k) :
    extTriple a b = extRec k a b := by
  rw [extTriple, extLoop_eq_extRec hb (Nat.le_refl _) hk]
  simp

/-- Settles O44: the fuel b + 1 is enough for the recursion. -/
theorem extgcdAgreesWithTheRecursion : Obligations.ExtgcdAgreesWithTheRecursion := by
  intro rd rs1 rs2 s hrd ha hb
  obtain ⟨t, ht, _, htriple⟩ := execExtgcd_of_pos hrd ha hb
  exact ⟨t, ht, htriple.trans (extTriple_eq_extRec hb.le (Nat.le_succ _))⟩

/-- One back-substitution of R80, as an equation of the triple. -/
theorem extTriple_step {a b : Int} (hb : 0 < b) :
    extTriple a b =
      ((extTriple b (a % b)).1, (extTriple b (a % b)).2.2,
        (extTriple b (a % b)).2.1 - a / b * (extTriple b (a % b)).2.2) := by
  have hnonneg := Int.emod_nonneg a hb.ne'
  have hlt := Int.emod_lt_of_pos a hb
  rw [extTriple_eq_extRec hb.le (Nat.le_succ _), extTriple_eq_extRec (k := b.toNat) hnonneg (by omega), extRec,
    if_neg hb.ne']

theorem extTriple_of_dvd {a b : Int} (hb : 0 < b) (h : b ∣ a) : extTriple a b = (b, 0, 1) := by
  rw [extTriple_step hb, Int.emod_eq_zero_of_dvd h, extTriple_eq_extRec le_rfl (Nat.le_refl _), extRec_zero]
  simp

/-- For a < b the quotient is 0, so one back-substitution only swaps the coefficients. -/
theorem extTriple_of_lt {a b : Int} (ha : 0 ≤ a) (h : a < b) :
    extTriple a b = ((extTriple b a).1, (extTriple b a).2.2, (extTriple b a).2.1) := by
  rw [extTriple_step (by omega), Int.emod_eq_of_lt ha h, Int.ediv_eq_zero_of_lt ha h, zero_mul, sub_zero]

/-- Settles O45: one back-substitution when b divides a, and one swap before it when a < b. -/
theorem extgcdCornerCases : Obligations.ExtgcdCornerCases := by
  intro rd rs1 rs2 s hrd ha hb
  obtain ⟨t, ht, _, htriple⟩ := execExtgcd_of_pos hrd ha hb
  refine ⟨t, ht, ?divides, ?dividesSwapped, ?swapped⟩
  case divides =>
    intro hdvd
    simpa [extTriple_of_dvd hb hdvd] using htriple
  case dividesSwapped =>
    intro hlt hdvd
    simpa [extTriple_of_lt ha.le hlt, extTriple_of_dvd ha hdvd] using htriple
  case swapped =>
    intro hlt
    obtain ⟨u, hu, _, hswap⟩ := execExtgcd_of_pos (rs1 := rs2) (rs2 := rs1) hrd hb ha
    rw [extTriple_of_lt ha.le hlt, ← hswap] at htriple
    simp only [Prod.mk.injEq] at htriple
    obtain ⟨h0, h1, h2⟩ := htriple
    exact ⟨u, hu, h0.symm, h2.symm, h1.symm⟩

/-! ### MODINV and MODPOW -/

/-- MODINV's value for coprime operands: the second coefficient of (n, k), reduced (R81). -/
theorem invZ_of_coprime {k n : Int} (hk : 0 < k) (hn : 0 < n) (h : Int.gcd k n = 1) :
    invZ k n = some (modZ (extTriple n k).2.2 n) := by
  rw [invZ, if_pos (by rw [extTriple_gcd hn hk, Int.gcd_comm, h, Nat.cast_one])]

section
variable {rd rs1 rs2 : RegIdx} {s : State} (hk : 0 < s.xInt rs1) (hn : 0 < s.xInt rs2)
include hk hn

theorem execModinv_of_some {r : Int} (h : invZ (s.xInt rs1) (s.xInt rs2) = some r) :
    exec (.modinv rd rs1 rs2) s = complete (s.writeX rd (enc r)) := by
  rw [exec, execModinv, if_neg (by omega), h]

theorem execModinv_of_none (h : invZ (s.xInt rs1) (s.xInt rs2) = none) :
    exec (.modinv rd rs1 rs2) s = raise .notInvertible s := by
  rw [exec, execModinv, if_neg (by omega), h]

end

/-- Settles O46: the inverse exists exactly for coprime operands, and is a residue modulo n, so it fits a register. -/
theorem modinvWritesTheInverse : Obligations.ModinvWritesTheInverse := by
  intro rd rs1 rs2 s
  refine ⟨encode_and_mask (.modinv rd rs1 rs2), ?coprime, ?notInvertible, fun h => fails_of_raise (if_pos h)⟩
  case coprime =>
    intro hk hn hgcd
    have hinv := invZ_of_coprime hk hn hgcd
    obtain ⟨hnonneg, hlt, hone⟩ := invZ_spec hk hn hinv
    obtain ⟨t, ht, hw, hx⟩ := writeX_wroteOnly rd hnonneg hlt.le
    refine ⟨t, (execModinv_of_some hk hn hinv).trans ht, hw, ?_⟩
    rw [hx]
    exact ⟨hnonneg, hlt, hone, modZ_eq _ _⟩
  case notInvertible =>
    intro hk hn hgcd
    exact fails_of_raise (execModinv_of_none hk hn ((invZ_none hk hn).mpr hgcd))

/-- Settles O47: square and multiply computes the power's residue, which is below m and so fits a register. -/
theorem modpowWritesThePower : Obligations.ModpowWritesThePower := by
  intro rd rs1 rs2 rs3 s
  refine ⟨encode_and_mask (.modpow rd rs1 rs2 rs3), ?positive, fun h => fails_of_raise (if_pos h)⟩
  case positive =>
    intro hb he hm
    have hpow : powModZ (s.xInt rs1) (s.xInt rs2) (s.xInt rs3) = modZ (s.xInt rs1 ^ (s.xInt rs2).toNat) (s.xInt rs3) :=
      powModZ_eq he hm
    obtain ⟨t, ht, hw, hx⟩ := writeX_wroteOnly rd (hpow ▸ modZ_nonneg hm) (hpow ▸ (modZ_lt hm).le)
    exact ⟨t, (if_neg (by omega)).trans ht, hw, hx.trans hpow⟩

end Sys2Proof.Machine
end

section
/-! PROOFS. The sequence commands: the order of their checks, and the elements they read (41_cipher_datapath.md R84,
R86). -/

namespace Sys2Proof.Machine

/-! ### The checks -/

theorem sequenceCheck_of_modulus {s : State} (own : Option ErrCode) (h : sint s.n ≤ 0) :
    sequenceCheck s own = some .domain := if_pos h

theorem sequenceCheck_of_length {s : State} (own : Option ErrCode) (hn : 0 < sint s.n)
    (h : s.cfg.dmax < uint s.dlen) : sequenceCheck s own = some .length :=
  (if_neg (by omega)).trans (if_pos h)

/-- Once N and DLEN pass, the command's own check decides. -/
theorem sequenceCheck_of_ready {s : State} (own : Option ErrCode) (h : s.sequenceReady) :
    sequenceCheck s own = own :=
  (if_neg (by have := h.1; omega)).trans (if_neg (by have := h.2; omega))

theorem keyCheck_of_zero {s : State} (h : uint s.klen = 0) : keyCheck s = some .invalidKey := if_pos h

theorem keyCheck_of_length {s : State} (h : s.cfg.kmax < uint s.klen) : keyCheck s = some .length :=
  (if_neg (by omega)).trans (if_pos h)

theorem configuredCheck_of_afv_clear {s : State} (h : s.status.afv = false) :
    configuredCheck s = some .notConfigured := by
  rw [configuredCheck, h]
  rfl

/-- A sequence command one of whose checks gives e fails with e, whatever is written. -/
theorem fails_of_check {i : Instr} {e : ErrCode} {s : State} (hi : i ∈ sequenceCommands)
    (h : sequenceCheck s (ownCheck i s) = some e) : Fails i e s :=
  fails_of_raise ((exec_sequence hi s).trans (sequenceRun_of_failed_check h))

theorem fails_of_ownCheck {i : Instr} {e : ErrCode} {s : State} (hi : i ∈ sequenceCommands) (hs : s.sequenceReady)
    (h : ownCheck i s = some e) : Fails i e s :=
  fails_of_check hi ((sequenceCheck_of_ready _ hs).trans h)

theorem failsSharedChecks {i : Instr} (hi : i ∈ sequenceCommands) (s : State) : FailsSharedChecks i s :=
  ⟨fun hn => fails_of_check hi (sequenceCheck_of_modulus _ hn),
    fun hn hd => fails_of_check hi (sequenceCheck_of_length _ hn hd)⟩

theorem failsKeyChecks {i : Instr} (hi : i ∈ sequenceCommands) {s : State} (hown : ownCheck i s = keyCheck s) :
    FailsKeyChecks i s :=
  ⟨fun hs hk => fails_of_ownCheck hi hs (hown.trans (keyCheck_of_zero hk)),
    fun hs hk => fails_of_ownCheck hi hs (hown.trans (keyCheck_of_length hk))⟩

theorem fails_of_not_configured {i : Instr} (hi : i ∈ sequenceCommands) {s : State}
    (hown : ownCheck i s = configuredCheck s) (hs : s.sequenceReady) (hv : s.status.afv = false) :
    Fails i .notConfigured s :=
  fails_of_ownCheck hi hs (hown.trans (configuredCheck_of_afv_clear hv))

/-- Settles O48: the shared checks come first, and then each command's own. -/
theorem sequenceCommandsCheckInOrder : Obligations.SequenceCommandsCheckInOrder := by
  refine fun s => ⟨fun i hi => failsSharedChecks hi s, ?key, ?configured⟩
  case key =>
    rintro i (rfl | rfl) <;> exact failsKeyChecks (by decide) rfl
  case configured =>
    rintro i (rfl | rfl) <;> exact fails_of_not_configured (by decide) rfl

/-! ### The elements read -/

theorem transformData_of_readSequence (f : Nat → Int → Int) {s : State} {ws : List Word}
    (h : s.readSequence = some ws) :
    transformData f s = complete { s with mem := Memory.writeElems s.mem (dataAddr 0) (mapElems f 0 ws) } := by
  simp only [transformData, h]

theorem transformData_of_unwritten (f : Nat → Int → Int) {s : State} (h : ¬s.dataWritten) :
    transformData f s = .fault .unwrittenRead := by
  have hread : s.readSequence = none := by
    rw [← Option.not_isSome_iff_eq_none, State.readSequence_isSome]
    exact h
  simp only [transformData, hread]

/-- With DLEN = 0 there is no element to transform. -/
theorem transformData_of_empty (f : Nat → Int → Int) {s : State} (h : uint s.dlen = 0) :
    transformData f s = complete s :=
  transformData_of_readSequence f (ws := []) (by rw [State.readSequence, h]; rfl)

theorem completedOk_succeeded {s t : State} (h : t.status = s.status.succeeded) : CompletedOk s t := by
  rw [CompletedOk, h]
  exact ⟨rfl, rfl, rfl, rfl, rfl, rfl⟩

theorem transformData_completedOk {f : Nat → Int → Int} {s t : State} (h : transformData f s = .next t) :
    CompletedOk s t := completedOk_succeeded (congrArg State.status (transformData_frame h))

/-- Of its elements, transforming DATA reads exactly DATA[0 .. DLEN-1] (R86). -/
theorem transformData_reads (f : Nat → Int → Int) (s : State) :
    (¬s.dataWritten → transformData f s = .fault .unwrittenRead) ∧
      (s.dataWritten → ∃ t, transformData f s = .next t ∧ CompletedOk s t) ∧
      (uint s.dlen = 0 → ∃ t, transformData f s = .next t ∧ CompletedOk s t ∧ t.mem = s.mem) := by
  refine ⟨transformData_of_unwritten f, fun hw => ?_, fun h => ?_⟩
  · obtain ⟨t, ht⟩ := transformData_completes f hw
    exact ⟨t, ht, transformData_completedOk ht⟩
  · exact ⟨_, transformData_of_empty f h, completedOk_succeeded rfl, rfl⟩

section
variable {i : Instr} {s : State} (hi : i ∈ sequenceCommands) (hs : s.sequenceReady) (hown : ownCheck i s = none)
include hi hs hown

/-- A sequence command whose checks pass transforms DATA. -/
theorem exec_of_elementMap {f : Nat → Int → Int} (hf : elementMap i s = some f) : exec i s = transformData f s := by
  rw [exec_sequence hi, hf, sequenceRun_of_passed_checks ((sequenceCheck_of_ready _ hs).trans hown)]

theorem exec_of_elementMap_none (hf : elementMap i s = none) : exec i s = .fault .unwrittenRead := by
  rw [exec_sequence hi, hf]
  simp only [sequenceRun, (sequenceCheck_of_ready _ hs).trans hown]

/-- So does one whose checks pass and whose KEY elements, if it reads any, are written. -/
theorem exec_of_checks_passed (hk : i = .paenc ∨ i = .padec → s.keyWritten) :
    ∃ f, exec i s = transformData f s := by
  cases hf : elementMap i s with
  | some f => exact ⟨f, exec_of_elementMap hi hs hown hf⟩
  | none =>
    obtain ⟨hpoly, hunwritten⟩ := elementMap_eq_none hi hf
    exact absurd (hk hpoly) hunwritten

end

theorem ownCheck_of_reads_data {i : Instr} {s : State}
    (h : i = .shenc ∨ i = .shdec ∨ (s.status.afv = true ∧ (i = .afenc ∨ i = .afdec))) :
    ownCheck i s = none := by
  rcases h with rfl | rfl | ⟨hv, rfl | rfl⟩
  case inl | inr.inl => rfl
  case inr.inr.inl | inr.inr.inr => exact configuredCheck_eq_none.mpr hv

theorem elementMap_of_key_unwritten {i : Instr} {s : State} (hi : i = .paenc ∨ i = .padec) (h : ¬s.keyWritten) :
    elementMap i s = none := by
  have hread : s.readKeyStream = none := by
    rw [← Option.not_isSome_iff_eq_none, State.readKeyStream_isSome]
    exact h
  rcases hi with rfl | rfl <;> simp only [elementMap, hread, Option.map_none]

/-- Settles O49: past its checks a command is its transform of DATA, or the fault of an unwritten KEY element. -/
theorem sequenceCommandsReadExactlyTheirElements : Obligations.SequenceCommandsReadExactlyTheirElements := by
  refine fun s hs => ⟨?data, ?poly⟩
  case data =>
    intro i hi
    have hmem : i ∈ sequenceCommands := by
      rcases hi with rfl | rfl | ⟨_, rfl | rfl⟩ <;> decide
    have hpoly : ¬(i = .paenc ∨ i = .padec) := by
      rcases hi with rfl | rfl | ⟨_, rfl | rfl⟩ <;> decide
    obtain ⟨f, hf⟩ := exec_of_checks_passed hmem hs (ownCheck_of_reads_data hi) fun h => absurd h hpoly
    rw [hf]
    exact transformData_reads f s
  case poly =>
    intro i hi hkr
    have hmem : i ∈ sequenceCommands := by
      rcases hi with rfl | rfl <;> decide
    have hown : ownCheck i s = none := by
      rcases hi with rfl | rfl <;> exact keyCheck_eq_none.mpr hkr
    by_cases hk : s.keyWritten
    · obtain ⟨f, hf⟩ := exec_of_checks_passed hmem hs hown fun _ => hk
      rw [hf]
      obtain ⟨hunwritten, hwritten, hempty⟩ := transformData_reads f s
      exact ⟨fun h => hunwritten (h.resolve_right (not_not.mpr hk)), fun hd _ => hwritten hd, hempty⟩
    · have hfault := exec_of_elementMap_none hmem hs hown (elementMap_of_key_unwritten hi hk)
      have hnonempty : uint s.dlen ≠ 0 := fun h0 => hk fun j hj => by omega
      exact ⟨fun _ => hfault, fun _ h => absurd h hk, fun h0 => absurd h0 hnonempty⟩

end Sys2Proof.Machine
end

section
/-! PROOFS. The cipher commands: their words, what each makes of the elements of DATA and what it leaves alone
(41_cipher_datapath.md R88 to R98). -/

namespace Sys2Proof.Machine

/-! ### One element -/

/-- SHENC's reduction of the key does not matter, as the sum is reduced (R89). -/
theorem shiftEnc_eq (n k x : Int) : shiftEnc n k x = guarded n x (modZ (x + k) n) := by
  rw [shiftEnc, modZ_eq, modZ_eq, modZ_eq, Int.add_emod_emod]

/-- SHDEC's added modulus does not matter either (R90). -/
theorem shiftDec_eq (n k y : Int) : shiftDec n k y = guarded n y (modZ (y - k) n) := by
  rw [shiftDec, modZ_eq, modZ_eq, modZ_eq, Int.add_emod_right, Int.sub_emod_emod]

/-- A guarded residue modulo N is written as the range guard says (R88). -/
theorem guardedBy_enc_guarded {n : Word} (hn : 0 < sint n) (a : Int) (x : Word) :
    GuardedBy n (a % sint n) x (enc (guarded (sint n) (sint x) (modZ a (sint n)))) := by
  refine ⟨fun hx => ?inside, fun hx => ?outside⟩
  case inside => rw [guarded, if_pos hx, sint_enc_modZ a hn, modZ_eq]
  case outside => rw [guarded, if_neg hx, enc_sint]

/-! ### A transformed sequence -/

/-- Transforming DATA transforms it by R, when the value written for each element x is in the relation R with x. -/
theorem transformData_transformed {f : Nat → Int → Int} {R : Nat → Word → Word → Prop} {s : State}
    (hw : s.dataWritten) (hR : ∀ i x, i < uint s.dlen → R i x (enc (f i (sint x)))) :
    ∃ t, transformData f s = .next t ∧ Transformed R s t := by
  obtain ⟨t, ht⟩ := transformData_completes f hw
  obtain ⟨hframe, helems, hout, _, _⟩ := transformData_eq_next ht
  refine ⟨t, ht, transformData_completedOk ht, ?frame, fun i hi => ?element, hout⟩
  case frame =>
    rw [show t.status = s.status.succeeded from congrArg State.status hframe]
    exact hframe
  case element =>
    obtain ⟨x, hx, hy⟩ := helems i hi
    exact ⟨x, _, hx, hy, hR i x hi⟩

/-- A sequence command whose checks pass, with its KEY elements read, transforms DATA by R. -/
theorem exec_transformed {i : Instr} {f : Nat → Int → Int} {R : Nat → Word → Word → Prop} {s : State}
    (hi : i ∈ sequenceCommands) (hs : s.sequenceReady) (hown : ownCheck i s = none) (hf : elementMap i s = some f)
    (hw : s.dataWritten) (hR : ∀ j x, j < uint s.dlen → R j x (enc (f j (sint x)))) :
    ∃ t, exec i s = .next t ∧ Transformed R s t := by
  rw [exec_of_elementMap hi hs hown hf]
  exact transformData_transformed hw hR

/-! ### SHENC and SHDEC -/

theorem execShenc_transformed {s : State} (hs : s.sequenceReady) (hw : s.dataWritten) :
    ∃ t, exec .shenc s = .next t ∧
      Transformed (fun _ x y => GuardedBy s.n ((sint x + sint s.shk) % sint s.n) x y) s t :=
  exec_transformed (by decide) hs rfl rfl hw fun _ x _ => by
    rw [shiftEnc_eq]
    exact guardedBy_enc_guarded hs.1 _ x

theorem execShdec_transformed {s : State} (hs : s.sequenceReady) (hw : s.dataWritten) :
    ∃ t, exec .shdec s = .next t ∧
      Transformed (fun _ x y => GuardedBy s.n ((sint x - sint s.shk) % sint s.n) x y) s t :=
  exec_transformed (by decide) hs rfl rfl hw fun _ x _ => by
    rw [shiftDec_eq]
    exact guardedBy_enc_guarded hs.1 _ x

/-- Settles O50: the shared checks, and the guarded sum. -/
theorem shencShiftsEachElement : Obligations.ShencShiftsEachElement :=
  ⟨by decide, fun s => ⟨failsSharedChecks (by decide) s, execShenc_transformed⟩⟩

/-- Settles O51: the shared checks, and the guarded difference. -/
theorem shdecShiftsEachElementBack : Obligations.ShdecShiftsEachElementBack :=
  ⟨by decide, fun s => ⟨failsSharedChecks (by decide) s, execShdec_transformed⟩⟩

/-! ### AFCFG, AFENC and AFDEC -/

/-- AFCFG with positive coprime AFA and N caches MODINV(AFA, N), a residue modulo N, so it fits AFAINV (R92). -/
theorem execAfcfg_of_coprime {s : State} (hn : 0 < sint s.n) (ha : 0 < sint s.afa)
    (hgcd : Int.gcd (sint s.afa) (sint s.n) = 1) :
    ∃ ai, exec .afcfg s = .next { s with afainv := ai, status := (s.status.withAfv true).succeeded } ∧
      0 ≤ sint ai ∧ sint ai < sint s.n ∧ (sint s.afa * sint ai) % sint s.n = 1 % sint s.n ∧
      sint ai = (extTriple (sint s.n) (sint s.afa)).2.2 % sint s.n := by
  have hinv := invZ_of_coprime ha hn hgcd
  obtain ⟨hnonneg, hlt, hone⟩ := invZ_spec ha hn hinv
  refine ⟨enc (modZ (extTriple (sint s.n) (sint s.afa)).2.2 (sint s.n)), ?runs, ?value⟩
  case runs =>
    rw [exec, execAfcfg, if_neg (by omega), if_neg (by omega), hinv]
    rfl
  case value =>
    rw [sint_enc_modZ _ hn]
    exact ⟨hnonneg, hlt, hone, modZ_eq _ _⟩

theorem execAfcfg_of_nonpositive {s : State} (h : sint s.n ≤ 0 ∨ sint s.afa ≤ 0) :
    exec .afcfg s = raise .domain (s.setAfv false) := by
  rw [exec, execAfcfg]
  rcases h with hn | ha
  · rw [if_pos hn]
  · rw [if_pos ha, ite_self]

theorem execAfcfg_of_not_coprime {s : State} (hn : 0 < sint s.n) (ha : 0 < sint s.afa)
    (hgcd : Int.gcd (sint s.afa) (sint s.n) ≠ 1) : exec .afcfg s = raise .notInvertible (s.setAfv false) := by
  rw [exec, execAfcfg, if_neg (by omega), if_neg (by omega), (invZ_none ha hn).mpr hgcd]

/-- Settles O52: a success caches the inverse, and a failure is raised with AFV cleared. -/
theorem afcfgCachesTheInverse : Obligations.AfcfgCachesTheInverse := by
  refine ⟨by decide, fun s => ⟨?coprime, execAfcfg_of_nonpositive, execAfcfg_of_not_coprime⟩⟩
  case coprime =>
    intro hn ha hgcd
    obtain ⟨ai, hrun, hvalue⟩ := execAfcfg_of_coprime hn ha hgcd
    exact ⟨_, hrun, rfl, rfl, hvalue⟩

theorem execAfenc_transformed {s : State} (hs : s.sequenceReady) (hv : s.status.afv = true) (hw : s.dataWritten) :
    ∃ t, exec .afenc s = .next t ∧
      Transformed (fun _ x y => sint y = (sint s.afa * sint x + sint s.afb) % sint s.n) s t :=
  exec_transformed (by decide) hs (configuredCheck_eq_none.mpr hv) rfl hw fun _ _ _ => sint_enc_modZ _ hs.1

theorem execAfdec_transformed {s : State} (hs : s.sequenceReady) (hv : s.status.afv = true) (hw : s.dataWritten) :
    ∃ t, exec .afdec s = .next t ∧
      Transformed (fun _ x y => sint y = (sint s.afainv * (sint x - sint s.afb)) % sint s.n) s t :=
  exec_transformed (by decide) hs (configuredCheck_eq_none.mpr hv) rfl hw fun _ _ _ => sint_enc_modZ _ hs.1

/-- Settles O53: the checks, and the residue, which fits its element whatever x is. -/
theorem afencTransformsEveryElement : Obligations.AfencTransformsEveryElement :=
  ⟨by decide, fun s =>
    ⟨failsSharedChecks (by decide) s, fails_of_not_configured (by decide) rfl, execAfenc_transformed⟩⟩

/-- Settles O54: the checks, and the residue, which fits its element whatever y is. -/
theorem afdecTransformsEveryElement : Obligations.AfdecTransformsEveryElement :=
  ⟨by decide, fun s =>
    ⟨failsSharedChecks (by decide) s, fails_of_not_configured (by decide) rfl, execAfdec_transformed⟩⟩

/-! ### PAENC and PADEC -/

/-- With its KEY elements written, a command finds KEY[i mod KLEN] for every position i below DLEN (R86, R96). -/
theorem readKeyStream_of_written {s : State} (hk : 0 < uint s.klen) (hw : s.keyWritten) :
    ∃ ks, s.readKeyStream = some ks ∧ ∀ i, i < uint s.dlen →
      ∃ k, s.keyAt (i % uint s.klen) = some k ∧ keyFor ks (uint s.klen) i = sint k := by
  obtain ⟨ks, hks⟩ := Option.isSome_iff_exists.mp (State.readKeyStream_isSome.mpr hw)
  obtain ⟨hlen, hget⟩ := State.readKeyStream_eq_some.mp hks
  refine ⟨ks, hks, fun i hi => ?_⟩
  have hj : i % uint s.klen < min (uint s.klen) (uint s.dlen) :=
    lt_min (Nat.mod_lt _ hk) ((Nat.mod_le _ _).trans_lt hi)
  refine ⟨ks[i % uint s.klen], ?_, ?_⟩
  · rw [hget _ hj, List.getElem?_eq_getElem]
  · rw [keyFor, List.getD_eq_getElem _ _ (by omega)]

section
variable {s : State} (hs : s.sequenceReady) (hk : s.keyReady) (hd : s.dataWritten) (hw : s.keyWritten)
include hs hk hd hw

/-- A command that combines each element with the key element of its position by op, modulo N and under the range
guard, with the checks of R84 on KLEN. -/
theorem exec_keyed_transformed {i : Instr} {op : Int → Int → Int} (hi : i ∈ sequenceCommands)
    (hown : ownCheck i s = keyCheck s)
    (hmap : elementMap i s = s.readKeyStream.map fun ks j x =>
      guarded (sint s.n) x (modZ (op x (keyFor ks (uint s.klen) j)) (sint s.n))) :
    ∃ t, exec i s = .next t ∧ Transformed (fun j x y => ∃ k, s.keyAt (j % uint s.klen) = some k ∧
      GuardedBy s.n (op (sint x) (sint k) % sint s.n) x y) s t := by
  obtain ⟨ks, hks, hkey⟩ := readKeyStream_of_written hk.1 hw
  rw [hks, Option.map_some] at hmap
  refine exec_transformed hi hs (hown.trans (keyCheck_eq_none.mpr hk)) hmap hd fun j x hj => ?_
  obtain ⟨k, hat, hfor⟩ := hkey j hj
  refine ⟨k, hat, ?_⟩
  rw [hfor]
  exact guardedBy_enc_guarded hs.1 _ x

theorem execPaenc_transformed :
    ∃ t, exec .paenc s = .next t ∧ Transformed (fun i x y => ∃ k, s.keyAt (i % uint s.klen) = some k ∧
      GuardedBy s.n ((sint x + sint k) % sint s.n) x y) s t :=
  exec_keyed_transformed (op := (· + ·)) hs hk hd hw (by decide) rfl rfl

theorem execPadec_transformed :
    ∃ t, exec .padec s = .next t ∧ Transformed (fun i x y => ∃ k, s.keyAt (i % uint s.klen) = some k ∧
      GuardedBy s.n ((sint x - sint k) % sint s.n) x y) s t :=
  exec_keyed_transformed (op := (· - ·)) hs hk hd hw (by decide) rfl rfl

end

/-- Settles O55: the checks, and the guarded sum with the key element of the position. -/
theorem paencAddsTheKeyStream : Obligations.PaencAddsTheKeyStream :=
  ⟨by decide, fun s => ⟨failsSharedChecks (by decide) s, failsKeyChecks (by decide) rfl, execPaenc_transformed⟩⟩

/-- Settles O56: the checks, and the guarded difference with the key element of the position. -/
theorem padecSubtractsTheKeyStream : Obligations.PadecSubtractsTheKeyStream :=
  ⟨by decide, fun s => ⟨failsSharedChecks (by decide) s, failsKeyChecks (by decide) rfl, execPadec_transformed⟩⟩

/-! ### PAENC with one key element -/

theorem mapElems_congr {f g : Nat → Int → Int} {i : Nat} {ws : List Word}
    (h : ∀ j x, j < i + ws.length → f j x = g j x) : mapElems f i ws = mapElems g i ws := by
  induction ws generalizing i with
  | nil => rfl
  | cons w ws ih =>
    rw [mapElems, mapElems, h i _ (by simp), ih fun j x hj => h j x (by simp only [List.length_cons]; omega)]

/-- Two transforms that agree on the positions below DLEN transform DATA alike. -/
theorem transformData_congr {f g : Nat → Int → Int} {s : State} (h : ∀ i x, i < uint s.dlen → f i x = g i x) :
    transformData f s = transformData g s := by
  cases hread : s.readSequence with
  | none => simp only [transformData, hread]
  | some ws =>
    obtain ⟨hlen, _⟩ := State.readSequence_eq_some.mp hread
    rw [transformData_of_readSequence f hread, transformData_of_readSequence g hread,
      mapElems_congr fun j x hj => h j x (by omega)]

/-- Transforming DATA does not read SHK. -/
theorem transformData_withShk {f : Nat → Int → Int} {s : State} (k : Word) (hw : s.dataWritten) :
    ∃ t u, transformData f s = .next t ∧ transformData f { s with shk := k } = .next u ∧ t.mem = u.mem ∧
      t.status = u.status := by
  obtain ⟨ws, hws⟩ := Option.isSome_iff_exists.mp (State.readSequence_isSome.mpr hw)
  exact ⟨_, _, transformData_of_readSequence f hws, transformData_of_readSequence (s := { s with shk := k }) f hws,
    rfl, rfl⟩

/-- Settles O57: every position takes KEY[0], and PAENC's guarded sum with it is SHENC's. -/
theorem paencWithOneKeyIsShenc : Obligations.PaencWithOneKeyIsShenc := by
  intro s k hs hlen hk hd hat
  have hw : s.keyWritten := by
    intro j hj
    obtain rfl : j = 0 := by omega
    exact Option.isSome_of_eq_some hat
  obtain ⟨ks, hks, hkey⟩ := readKeyStream_of_written hk.1 hw
  have hpaenc : exec .paenc s = transformData (fun _ x => shiftEnc (sint s.n) (sint k) x) s := by
    rw [exec_of_elementMap (i := .paenc) (by decide) hs (keyCheck_eq_none.mpr hk)
      (by rw [elementMap, hks, Option.map_some])]
    refine transformData_congr fun i x hi => ?_
    obtain ⟨k', hat', hfor⟩ := hkey i hi
    rw [hlen, Nat.mod_one, hat, Option.some.injEq] at hat'
    rw [hfor, ← hat', polyEnc, shiftEnc_eq]
  have hshenc : exec .shenc { s with shk := k } =
      transformData (fun _ x => shiftEnc (sint s.n) (sint k) x) { s with shk := k } :=
    exec_of_elementMap (s := { s with shk := k }) (by decide) hs rfl rfl
  rw [hpaenc, hshenc]
  exact transformData_withShk k hd

end Sys2Proof.Machine
end

section
/-! PROOFS. The round trips: a sequence command and its inverse, one after the other (41_cipher_datapath.md R91, R95,
R99). -/

namespace Sys2Proof.Machine

/-! ### One element there and back -/

theorem sint_injective {x y : Word} (h : sint x = sint y) : x = y := BitVec.eq_of_toInt_eq h

/-- Two guarded shifts whose keys cancel restore every element: one in [0, N) stays there, and the others are passed
through twice (R91, R99). -/
theorem guardedBy_round_trip {n x y z : Word} {k k' : Int} (hn : 0 < sint n) (hk : k + k' = 0)
    (hy : GuardedBy n ((sint x + k) % sint n) x y) (hz : GuardedBy n ((sint y + k') % sint n) y z) : z = x := by
  by_cases hx : 0 ≤ sint x ∧ sint x < sint n
  · have hyv := hy.1 hx
    have hyr : 0 ≤ sint y ∧ sint y < sint n := by
      rw [hyv]
      exact ⟨Int.emod_nonneg _ hn.ne', Int.emod_lt_of_pos _ hn⟩
    apply sint_injective
    rw [hz.1 hyr, hyv, Int.emod_add_emod, add_assoc, hk, add_zero, Int.emod_eq_of_lt hx.1 hx.2]
  · obtain rfl := hy.2 hx
    exact hz.2 hx

/-- The affine maps by a and by its inverse modulo n compose to the canonical residue (R95). -/
theorem affine_round_trip {n a ai : Int} (b x : Int) (h : (a * ai) % n = 1 % n) :
    (ai * ((a * x + b) % n - b)) % n = x % n := by
  have hinner : (a * x + b) % n - b ≡ a * x [ZMOD n] := by
    simpa using (Int.mod_modEq (a * x + b) n).sub_right b
  have hinv : a * ai ≡ 1 [ZMOD n] := h
  calc ai * ((a * x + b) % n - b) ≡ ai * (a * x) [ZMOD n] := hinner.mul_left ai
    _ = (a * ai) * x := by ring
    _ ≡ 1 * x [ZMOD n] := hinv.mul_right x
    _ = x := one_mul x

/-! ### One sequence after the other -/

section
variable {R R' : Nat → Word → Word → Prop} {s t u : State} (h : Transformed R s t)
include h

/-- A transformed state differs from the one before in memory and STATUS alone. -/
theorem Transformed.exists_eq : ∃ m st, t = { s with mem := m, status := st } := ⟨_, _, h.2.1⟩

theorem Transformed.afv : t.status.afv = s.status.afv := by
  obtain ⟨⟨_, _, _, _, hafv, _⟩, _⟩ := h
  exact hafv

/-- The elements of a transformed sequence are written. -/
theorem Transformed.dataWritten : t.dataWritten := by
  obtain ⟨_, hframe, helems, _⟩ := h
  intro i hi
  rw [hframe] at hi
  obtain ⟨x, y, _, hy, _⟩ := helems i hi
  exact Option.isSome_of_eq_some hy

theorem Transformed.sequenceReady (hs : s.sequenceReady) : t.sequenceReady := by
  obtain ⟨m, st, rfl⟩ := h.exists_eq
  exact hs

/-- Two transformations of a sequence, element by element. -/
theorem Transformed.comp (h' : Transformed R' t u) {i : Nat} (hi : i < uint s.dlen) :
    ∃ x y z, s.dataAt i = some x ∧ u.dataAt i = some z ∧ R i x y ∧ R' i y z := by
  obtain ⟨_, hframe, helems, _⟩ := h
  obtain ⟨_, _, helems', _⟩ := h'
  obtain ⟨x, y, hx, hy, hR⟩ := helems i hi
  obtain ⟨y', z, hy', hz, hR'⟩ := helems' i (by rw [hframe]; exact hi)
  cases hy.symm.trans hy'
  exact ⟨x, y, z, hx, hz, hR, hR'⟩

/-- Two transformations that undo each other on one element restore the sequence. -/
theorem Transformed.restores (h' : Transformed R' t u) (hR : ∀ i x y z, R i x y → R' i y z → z = x) {i : Nat}
    (hi : i < uint s.dlen) : u.dataAt i = s.dataAt i := by
  obtain ⟨x, y, z, hx, hz, hxy, hyz⟩ := h.comp h' hi
  rw [hx, hz, hR i x y z hxy hyz]

end

/-! ### The obligations -/

/-- Settles O58: SHK cancels, whichever command comes first. -/
theorem shiftRoundTripRestoresData : Obligations.ShiftRoundTripRestoresData := by
  refine fun s hs hw => ⟨?encDec, ?decEnc⟩
  case encDec =>
    obtain ⟨t, ht, hst⟩ := execShenc_transformed hs hw
    obtain ⟨u, hu, htu⟩ := execShdec_transformed (hst.sequenceReady hs) hst.dataWritten
    refine ⟨t, u, ht, hu, fun i hi => hst.restores htu (fun _ x y z hy hz => ?_) hi⟩
    obtain ⟨m, st, rfl⟩ := hst.exists_eq
    exact guardedBy_round_trip hs.1 (add_neg_cancel _) hy hz
  case decEnc =>
    obtain ⟨t, ht, hst⟩ := execShdec_transformed hs hw
    obtain ⟨u, hu, htu⟩ := execShenc_transformed (hst.sequenceReady hs) hst.dataWritten
    refine ⟨t, u, ht, hu, fun i hi => hst.restores htu (fun _ x y z hy hz => ?_) hi⟩
    obtain ⟨m, st, rfl⟩ := hst.exists_eq
    exact guardedBy_round_trip hs.1 (neg_add_cancel _) hy hz

/-- A canonical residue is the element itself exactly when the element is in [0, N). -/
theorem eq_iff_of_sint_eq_emod {x y n : Word} (hn : 0 < sint n) (h : sint y = sint x % sint n) :
    y = x ↔ 0 ≤ sint x ∧ sint x < sint n := by
  constructor
  · rintro rfl
    rw [h]
    exact ⟨Int.emod_nonneg _ hn.ne', Int.emod_lt_of_pos _ hn⟩
  · rintro ⟨h0, hlt⟩
    exact sint_injective (h.trans (Int.emod_eq_of_lt h0 hlt))

/-- Settles O59: AFCFG caches the inverse that AFDEC multiplies by, so the two affine maps compose to the residue. -/
theorem affineRoundTripReducesData : Obligations.AffineRoundTripReducesData := by
  intro s hs ha hgcd hw
  obtain ⟨ai, hr, _, _, hone, _⟩ := execAfcfg_of_coprime hs.1 ha hgcd
  obtain ⟨t, ht, hrt⟩ := execAfenc_transformed
    (s := { s with afainv := ai, status := (s.status.withAfv true).succeeded }) hs rfl hw
  obtain ⟨u, hu, htu⟩ := execAfdec_transformed (hrt.sequenceReady hs) hrt.afv hrt.dataWritten
  refine ⟨_, t, u, hr, ht, hu, fun i hi => ?_⟩
  obtain ⟨x, y, z, hx, hz, hxy, hyz⟩ := hrt.comp htu hi
  obtain ⟨m, st, rfl⟩ := hrt.exists_eq
  have hmod : sint z = sint x % sint s.n := by
    rw [hyz, hxy]
    exact affine_round_trip _ _ hone
  exact ⟨x, z, hx, hz, hmod, eq_iff_of_sint_eq_emod hs.1 hmod⟩

/-- A command leaves KEY as it was (R37). -/
theorem keyAt_of_exec {i : Instr} {s t : State} (hc : s.cfg.wf) (h : exec i s = .next t) (j : Nat) :
    t.keyAt j = s.keyAt j :=
  Memory.readWord_congr fun a ha _ => noCommandWritesKey i s t hc h a ((Nat.le_add_right _ _).trans ha)

/-- Settles O60: PAENC leaves KEY, so PADEC takes the same key element at each position, and it cancels. -/
theorem polyalphabeticRoundTripRestoresData : Obligations.PolyalphabeticRoundTripRestoresData := by
  intro s hc hs hk hd hw
  obtain ⟨t, ht, hst⟩ := execPaenc_transformed hs hk hd hw
  have hkey := keyAt_of_exec hc ht
  have hready := hst.sequenceReady hs
  have hdata := hst.dataWritten
  obtain ⟨m, st, rfl⟩ := hst.exists_eq
  obtain ⟨u, hu, htu⟩ := execPadec_transformed hready hk hdata fun j hj => (hkey j).symm ▸ hw j hj
  refine ⟨_, u, ht, hu, fun i hi => hst.restores htu (fun j x y z hy hz => ?_) hi⟩
  obtain ⟨k, hat, hy⟩ := hy
  obtain ⟨k', hat', hz⟩ := hz
  rw [hkey] at hat'
  cases hat.symm.trans hat'
  exact guardedBy_round_trip hs.1 (add_neg_cancel _) hy hz

end Sys2Proof.Machine
end

section
/-! PROOFS. NOP: the one word of its opcode that decodes, and what it leaves alone (42_engine_control.md R100). -/

namespace Sys2Proof

/-- The word 0 alone is NOP (R100). -/
theorem decode_eq_nop_iff {v : Word} : decode v = .ok .nop ↔ v = 0 := by
  have hword : cmdWrite (encode .nop) = 0 := by decide
  rw [decode_eq_ok_iff_encode, hword]
  exact ⟨fun ⟨_, h⟩ => h.symm, fun h => ⟨rfl, h.symm⟩⟩

/-- NOP has the one row of R71 whose OP is 0. -/
theorem eq_nop_of_opcode_eq_zero {i : Instr} (h : i.opcode = 0x00) : i = .nop := by
  cases i
  case nop => rfl
  all_goals cases h

/-- A word with OP 0 that is not the word 0 is illegal: the only command it could be is NOP (R72, R100). -/
theorem exists_decode_eq_error_of_opField_zero {v : Word} (hop : opField v = 0x00) (hv : v ≠ 0) :
    ∃ e, decode v = .error e := by
  cases hd : decode v with
  | error e => exact ⟨e, rfl⟩
  | ok i =>
    have hopcode : i.opcode = opField v := decodingAgreesWithMatchAndMask.2 v i hd
    obtain rfl := eq_nop_of_opcode_eq_zero (hopcode.trans hop)
    exact absurd (decode_eq_nop_iff.mp hd) hv

end Sys2Proof

namespace Sys2Proof.Machine

/-- NOP completes, and does nothing else (R100). -/
theorem exec_nop (s : State) : exec .nop s = .next { s with status := s.status.succeeded } := rfl

/-- After a completion without error DONE is 1, so `irq` is IE (R40, R103). -/
theorem irq_of_succeeded (s : State) : State.irq { s with status := s.status.succeeded } = s.ie := by
  rw [State.irq, Status.succeeded_done, Bool.and_true]

/-- Settles O40: the encoder gives NOP the word 0, and completion without error is NOP's whole effect. -/
theorem nopCompletesAndWritesNothing : Obligations.NopCompletesAndWritesNothing := by
  refine ⟨fun v hop => ⟨decode_eq_nop_iff, exists_decode_eq_error_of_opField_zero hop⟩, fun s => ?completes⟩
  case completes =>
    exact ⟨_, exec_nop s, rfl, irq_of_succeeded s⟩

end Sys2Proof.Machine
end

section
/-! PROOFS. The life of a command, from its CMD write to its end: issue, the turn that runs it, the end it comes to, and
the error it may end with (60_exceptions.md R101 to R105). -/

namespace Sys2Proof.Machine

/-! ### Issue -/

/-- Issue clears DONE, so `irq` drops, whatever IE is (R40, R101). -/
theorem State.irq_issue (s : State) (v : Word) : (s.issue v).irq = false := by
  rw [State.irq, State.issue_status, Status.issued_done, Bool.and_false]

/-- Settles O18: an idle block issues the word, and the port answers OKAY. -/
theorem cmdWriteWhileIdleIssues : Obligations.CmdWriteWhileIdleIssues :=
  fun s v hb => ⟨_, busAccess_cmdWrite_idle v hb, rfl, s.irq_issue v⟩

/-! ### The turn of the ENGINE -/

theorem nextEvent_of_engineNext {s : State} (h : EngineNext s) : nextEvent s.agenda = .engine := by
  rcases h with ha | ⟨rest, ha⟩ <;> rw [ha, nextEvent]

/-- With no fault recorded and the ENGINE next, the step is its turn, and a fault of it recorded; the agenda's turn is
taken off, and an empty agenda stays. -/
theorem step_of_engineNext {s : State} (hf : s.fault = none) (hn : EngineNext s) :
    step s = recordFault { s with agenda := s.agenda.tail } (engineTurn { s with agenda := s.agenda.tail }) := by
  rw [step_of_no_fault hf, ordinaryTurn, nextEvent_of_engineNext hn, runEvent]

/-- While BUSY = 1 the ENGINE runs the command that INFLIGHT decodes to (R102, R103). -/
theorem engineTurn_of_decoded {s : State} {i : Instr} (hb : s.status.busy = true) (hd : decode s.inflight = .ok i) :
    engineTurn s = exec i s := by
  rw [engineTurn, if_pos hb, completeInFlight, hd]

/-- Settles O6: the step is the turn of the ENGINE, and the turn is the command. -/
theorem stepRunsTheDecodedCommand : Obligations.StepRunsTheDecodedCommand := by
  intro s i hf hb hd hn
  apply StepIs.of_recordFault
  rw [step_of_engineNext hf hn, engineTurn_of_decoded (s := { s with agenda := s.agenda.tail }) hb hd]

/-! ### The end of a command in flight -/

/-- A command is in flight, and neither a fault nor the reset pin stands in its way. -/
def State.commandInFlight (s : State) : Prop := s.fault = none ∧ s.status.busy = true ∧ s.rst = false

/-- No command is in flight any more, or a fault is recorded. -/
def State.commandEnded (s : State) : Prop := s.status.busy = false ∨ ∃ f, s.fault = some f

/-- A run of at most n steps from s reaches such an end. -/
def EndsWithin (n : Nat) (s : State) : Prop :=
  ∃ k t, k ≤ n ∧ Host.Core.run Sys2Proof.core k s = .next t ∧ t.commandEnded

theorem EndsWithin.of_commandEnded {s : State} (n : Nat) (h : s.commandEnded) : EndsWithin n s :=
  ⟨0, s, n.zero_le, rfl, h⟩

theorem EndsWithin.of_step {n : Nat} {s t : State} (h : step s = .next t) (ht : EndsWithin n t) :
    EndsWithin (n + 1) s := by
  obtain ⟨k, u, hk, hrun, hu⟩ := ht
  exact ⟨k + 1, u, Nat.succ_le_succ hk, (Laws.core_run_next h).trans hrun, hu⟩

/-- A turn of the ENGINE that answers has completed the command in flight (R103, R104). -/
theorem engineTurn_completes {s t : State} (hb : s.status.busy = true) (h : engineTurn s = .next t) :
    t.status.busy = false := by
  rcases engineTurn_cases s with ⟨hb', _⟩ | ⟨_, _, _, he⟩ | ⟨_, i, _, he⟩
  · cases hb.symm.trans hb'
  · obtain rfl := raise_eq_next.mp (he.symm.trans h)
    rfl
  · obtain ⟨hbusy, _⟩ := (exec_effect (he.symm.trans h)).ended
    exact hbusy

/-- The ENGINE's turn ends the command in flight, or its fault is recorded. -/
theorem State.commandInFlight.step_engine {s : State} (h : s.commandInFlight) (hn : EngineNext s) :
    ∃ t, step s = .next t ∧ t.commandEnded := by
  obtain ⟨hf, hb, _⟩ := h
  obtain ⟨t, ht⟩ := step_answers_of_no_fault hf
  refine ⟨t, ht, ?_⟩
  rcases recordFault_eq_next.mp ((step_of_engineNext hf hn).symm.trans ht) with hnext | ⟨f, _, rfl⟩
  · exact .inl (engineTurn_completes (s := { s with agenda := s.agenda.tail }) hb hnext)
  · exact .inr ⟨f, rfl⟩

theorem AccessEffect.keeps_agenda_rst {r : Request} {s t : State} (h : AccessEffect r s t) :
    t.agenda = s.agenda ∧ t.rst = s.rst := by
  cases h with
  | written off bytes tgt _ _ _ _ _ => cases tgt <;> exact ⟨rfl, rfl⟩
  | _ => exact ⟨rfl, rfl⟩

/-- A request is served while a command is in flight, and the command stays in flight (R52, R53). -/
theorem State.commandInFlight.step_request {s : State} {r : Request} {rest : List Event} (h : s.commandInFlight)
    (ha : s.agenda = .bus r :: rest) : ∃ t, step s = .next t ∧ t.commandInFlight ∧ t.agenda = rest := by
  obtain ⟨hf, hb, hr⟩ := h
  obtain ⟨hserved, _⟩ := stepServesTheOldestEvent s hf
  obtain ⟨hstep, _⟩ := hserved r rest ha hr
  obtain ⟨t, ht⟩ := busAccess_answers_of_busy (s := { s with agenda := rest }) r hb
  have effect := busAccess_effect ht
  obtain ⟨hagenda, hrst⟩ := effect.keeps_agenda_rst
  exact ⟨t, hstep t ht, ⟨effect.keeps_fault.trans hf, effect.busy_stays hb, hrst.trans hr⟩, hagenda⟩

/-- Releasing a pin that is released leaves the command in flight. -/
theorem State.commandInFlight.step_release {s : State} {rest : List Event} (h : s.commandInFlight)
    (ha : s.agenda = .pin false :: rest) : ∃ t, step s = .next t ∧ t.commandInFlight ∧ t.agenda = rest := by
  obtain ⟨hf, hb, _⟩ := h
  obtain ⟨_, _, _, hrelease⟩ := stepServesTheOldestEvent s hf
  exact ⟨_, hrelease rest ha, ⟨hf, hb, rfl⟩, rfl⟩

/-- Each event of the agenda ends the command in flight or is taken while it stays in flight, and when no event is left
the ENGINE has the turn. -/
theorem State.commandInFlight.endsWithin {s : State} (h : s.commandInFlight) : EndsWithin (s.agenda.length + 1) s := by
  induction ha : s.agenda generalizing s with
  | nil =>
    obtain ⟨t, ht, hend⟩ := h.step_engine (.inl ha)
    exact .of_step ht (.of_commandEnded _ hend)
  | cons e rest ih =>
    cases e with
    | engine =>
      obtain ⟨t, ht, hend⟩ := h.step_engine (.inr ⟨rest, ha⟩)
      exact .of_step ht (.of_commandEnded _ hend)
    | bus r =>
      obtain ⟨t, ht, hfl, hrest⟩ := h.step_request ha
      exact .of_step ht (ih hfl hrest)
    | pin level =>
      cases level with
      | true => exact .of_step (step_of_pin_asserted ha) (.of_commandEnded _ (.inl rfl))
      | false =>
        obtain ⟨t, ht, hfl, hrest⟩ := h.step_release ha
        exact .of_step ht (ih hfl hrest)

/-- Settles O39: by induction on the agenda. -/
theorem commandInFlightEnds : Obligations.CommandInFlightEnds :=
  fun _ hf hb hr => State.commandInFlight.endsWithin ⟨hf, hb, hr⟩

/-! ### The end with an error -/

/-- Of the effects of a command, those that leave ERR = 1 differ from the state before in STATUS alone (R104). -/
theorem CommandEffect.frame_of_err {s t : State} (h : CommandEffect s t) (he : t.status.err = true) :
    t = { s with status := t.status } := by
  cases h with
  | failed e _ => rfl
  | unconfigured e _ => rfl
  | wroteX x => cases he
  | configured r _ _ _ => cases he
  | transformed f ht =>
    rw [transformData_frame ht] at he
    cases he

/-- AFCFG that ends with ERR = 1 has cleared AFV (R92). -/
theorem execAfcfg_clears_afv {s t : State} (h : execAfcfg s = .next t) (he : t.status.err = true) :
    t.status.afv = false := by
  rcases execAfcfg_outcome s with ⟨e, ho⟩ | ⟨w, ho⟩ <;> cases (ho s rfl rfl).symm.trans h
  case fails => rfl
  case caches => cases he

/-- Settles O33: an end with ERR = 1 is one of the two failures, and only AFCFG's touches AFV. -/
theorem erroringCommandWritesOnlyStatus : Obligations.ErroringCommandWritesOnlyStatus := by
  refine ⟨fun e s => rfl, fun i s t h he => ?_⟩
  have effect := exec_effect h
  obtain ⟨hbusy, hdone, _, hbovr⟩ := effect.ended
  refine ⟨effect.frame_of_err he, hbusy, hdone, hbovr, fun ha => (exec_keeps_affine ha h).1, ?afcfg⟩
  case afcfg =>
    rintro rfl
    exact execAfcfg_clears_afv h he

end Sys2Proof.Machine
end

section
/-! PROOFS. A request made while `rst` is asserted (60_exceptions.md R118; 70_reset_and_hazards.md R119). -/

namespace Sys2Proof.Machine

theorem pullPin_eq_none {es : List Event} (h : ∀ b, Event.pin b ∉ es) : pullPin es = none := by
  induction es with
  | nil => rfl
  | cons e es ih =>
    have hes : pullPin es = none := ih fun b hb => h b (List.mem_cons_of_mem _ hb)
    cases e with
    | pin b => exact absurd List.mem_cons_self (h b)
    | engine => rw [pullPin, hes]
    | bus r => rw [pullPin, hes]

/-- The first pin change is pulled out from between the events before it and those after it. -/
theorem pullPin_append {before : List Event} (b : Bool) (after : List Event) (h : ∀ c, Event.pin c ∉ before) :
    pullPin (before ++ .pin b :: after) = some (b, before ++ after) := by
  induction before with
  | nil => rfl
  | cons e es ih =>
    have hes : pullPin (es ++ .pin b :: after) = some (b, es ++ after) :=
      ih fun c hc => h c (List.mem_cons_of_mem _ hc)
    cases e with
    | pin c => exact absurd List.mem_cons_self (h c)
    | engine => rw [List.cons_append, pullPin, hes, List.cons_append]
    | bus r => rw [List.cons_append, pullPin, hes, List.cons_append]

/-- While `rst` is asserted, the step from a state whose oldest event is a request is the wait for the pin (log 6). -/
theorem step_of_request_in_reset {s : State} {r : Request} {rest : List Event} (hf : s.fault = none)
    (hr : s.rst = true) (ha : s.agenda = .bus r :: rest) : step s = .next (waitForPin s) := by
  have hs : { s with agenda := .bus r :: rest } = s := by rw [← ha]
  rw [step_of_event hf ha, runEvent, requestTurn, if_pos hr, recordFault, hs]

theorem waitForPin_of_no_pin {s : State} (h : ∀ b, Event.pin b ∉ s.agenda) : waitForPin s = s := by
  rw [waitForPin, pullPin_eq_none h]

theorem waitForPin_of_pin {s : State} {before after : List Event} {b : Bool}
    (ha : s.agenda = before ++ .pin b :: after) (h : ∀ c, Event.pin c ∉ before) :
    waitForPin s = pinEvent b { s with agenda := before ++ after } := by
  rw [waitForPin, ha, pullPin_append b after h]

/-- A request is no pin change, so putting one before other events adds none. -/
theorem pin_notMem_bus_cons {es : List Event} (r : Request) (h : ∀ b, Event.pin b ∉ es) (b : Bool) :
    Event.pin b ∉ Event.bus r :: es :=
  List.not_mem_cons_of_ne_of_not_mem Event.noConfusion (h b)

/-- The pin takes its level and leaves the agenda; only its assertion takes the response away (R119; log 6). -/
theorem pinEvent_agenda_rst_response (b : Bool) (s : State) :
    (pinEvent b s).agenda = s.agenda ∧ (pinEvent b s).rst = b ∧
      (b = false → (pinEvent b s).response = s.response) ∧ (b = true → (pinEvent b s).response = none) := by
  cases b with
  | false => exact ⟨rfl, rfl, fun _ => rfl, nofun⟩
  | true => exact ⟨rfl, rfl, nofun, fun _ => rfl⟩

/-- Settles O10: the waiting request is one of the events before the first pin change, which is pulled out past it. -/
theorem requestDuringResetWaits : Obligations.RequestDuringResetWaits := by
  intro s r rest hf hr ha
  rw [step_of_request_in_reset hf hr ha]
  refine ⟨?noPin, ?pin⟩
  case noPin =>
    intro hno
    rw [waitForPin_of_no_pin (ha ▸ pin_notMem_bus_cons r hno)]
  case pin =>
    rintro before after b rfl hno
    have hwait := waitForPin_of_pin (before := .bus r :: before) ha (pin_notMem_bus_cons r hno)
    exact ⟨_, congrArg _ hwait, pinEvent_agenda_rst_response b _⟩

end Sys2Proof.Machine
end
